-- ==== Sys2Proof/Word.lean ====
section
/-! DEFINITION. The three widths the spec uses: u8, u16 and u32 (spec/00_scope.md R7). -/

namespace Sys2Proof

/-- u8: a byte of the data memory, a colour channel, an index (R7, R50). -/
abbrev Byte := BitVec 8

/-- u16: a Color15 (R10). -/
abbrev Half := BitVec 16

/-- u32: a register of the window, a command word, an address (R5, R22). -/
abbrev Word := BitVec 32

end Sys2Proof
end

