-- ==== Sys2Proof/Config.lean ====
section
/-! DEFINITION. What an implementation fixes (spec/00_scope.md R5, all three OPEN) and the free values of the
model (70_reset_and_hazards.md R241, R243). An `opaque` here has no body: no proof can see what it is. -/

namespace Sys2Proof

/-- The implementation parameters of one part (R5). A state holds the parameters of the part it is a state of and no
step changes them, so a statement about every state holds for every value of them (log entry 1, DESIGN CHOICE).
MEM_BYTES and QMAX are held as their largest index, so that the bounds `1 ≤ MEM_BYTES ≤ 2^32` and `1 ≤ QMAX` of R5
hold by construction. -/
structure Params where
  /-- The highest data-memory address, MEM_BYTES − 1. -/
  memTop : Word
  /-- The highest index of the sort store, QMAX − 1. -/
  sortTop : Nat
  /-- REG_BASE: the host bus address of register offset 0x00 (R22). -/
  regBase : Nat
deriving DecidableEq, Repr

/-- MEM_BYTES: the number of bytes of the data memory (R5, R50). -/
def Params.memBytes (p : Params) : Nat := p.memTop.toNat + 1

/-- QMAX: the largest colour count QUANT accepts (R5, R160). -/
def Params.qmax (p : Params) : Nat := p.sortTop + 1

/-- The size of the register window in bytes (R22). -/
def windowBytes : Nat := 64

namespace Config

/-- MEM_BYTES − 1 of the part at reset: OPEN (R5, 92_eei_decisions.md D8). -/
opaque memTop : Word

/-- QMAX − 1 of the part at reset: OPEN (R5, D23). -/
opaque sortTop : Nat

/-- REG_BASE of the part at reset: OPEN (R5, D4). -/
opaque regBase : Nat

/-- mem0: the bytes the data memory holds at launch, a parameter with no law (70_reset_and_hazards.md R241). -/
opaque mem0 (addr : Nat) : Byte

/-- The byte that address `addr` holds after the `draw`-th reset that interrupted a command writing it: old value or
any value (R243, U3; log entry 5). A free value: nothing constrains it. -/
opaque tornByte (draw addr : Nat) : Byte

end Config

/-- The parameters of the part that State.reset is a state of. -/
def Config.launch : Params := ⟨Config.memTop, Config.sortTop, Config.regBase⟩

end Sys2Proof
end

