-- ==== Sys2Proof/Machine/Access.lean ====
section
/-! DEFINITION. What the host can do to the block: the interactions of spec/70_reset_and_hazards.md R255 as data, and
the names of the register window's registers (10_state.md R22). A host program is a list of accesses (R91, R254). -/

namespace Sys2Proof.Machine

/-- The registers of the window by name (R22). -/
inductive Reg where
  | id | cmd | status | src | dst | count | width | height | ncol | cin | cout
deriving DecidableEq, Repr

/-- Where a window access goes. -/
inductive BusAddr where
  /-- The host bus address REG_BASE + `off`, as a line of a host program names it (R91); an offset of 64 or more is
  outside the window (R22). -/
  | slot (off : Nat)
  /-- An absolute host bus address (R22). -/
  | bus (addr : Nat)
deriving DecidableEq, Repr

/-- One access of the host, or a reset (R255). -/
inductive Access where
  /-- A bus write of `size` bytes. Only an aligned 32-bit write reaches a register (R35), so the value is a word; at
  the offset of CMD it runs a command (R24). -/
  | write (dest : BusAddr) (size : Nat) (v : Word)
  /-- A bus read of `size` bytes (R35). -/
  | read (src : BusAddr) (size : Nat)
  /-- `mw a: b0 b1 …`: the host writes bytes of the data memory directly (R38, R91). -/
  | memWrite (a : Nat) (bytes : List Byte)
  /-- `mr a, n`: the host reads `n` bytes of the data memory directly (R38, R91). -/
  | memRead (a n : Nat)
  /-- Reset asserted and released between accesses (R240, R241). -/
  | reset
  /-- A CMD write of `w` that has not completed when reset is asserted (R243). -/
  | resetDuringCommand (w : Word)
deriving DecidableEq, Repr

/-- What an access gives back to the host (R255). -/
inductive Reply where
  /-- A write, a reset, or an access that does not reach the block. -/
  | nothing
  /-- The value of a register read. -/
  | word (v : Word)
  /-- The bytes of a data-memory read, lowest address first. -/
  | bytes (bs : List Byte)
deriving DecidableEq, Repr

end Sys2Proof.Machine
end

