-- ==== Sys2Proof/Syntax.lean ====
section
/-! DEFINITION. The eleven commands, one constructor per row of spec/opcode_table.json (30_encoding.md R86).
A command word carries no operand (R89), so no constructor has an argument. -/

namespace Sys2Proof

/-- The commands of NBE-GCB, in the order of the opcode map R86. -/
inductive Instr where
  /-- CENC: encode an array of Color24 (R102). -/
  | cenc
  /-- CDEC: decode an array of Color15 (R103). -/
  | cdec
  /-- CENCR: encode the Color24 in CIN (R104). -/
  | cencr
  /-- CDECR: decode the Color15 in CIN (R105). -/
  | cdecr
  /-- TTILE: linear to tiled (R122). -/
  | ttile
  /-- TLIN: tiled to linear (R123). -/
  | tlin
  /-- PACK4: pack 4-bit indices (R140). -/
  | pack4
  /-- UNPK4: unpack 4-bit indices (R141). -/
  | unpk4
  /-- PACK8: pack 8-bit indices (R142). -/
  | pack8
  /-- UNPK8: unpack 8-bit indices (R143). -/
  | unpk8
  /-- QUANT: reduce M colours to N palette entries (R167). -/
  | quant
deriving DecidableEq, Repr

/-- Every command, once. -/
def Instr.all : List Instr :=
  [.cenc, .cdec, .cencr, .cdecr, .ttile, .tlin, .pack4, .unpk4, .pack8, .unpk8, .quant]

end Sys2Proof
end

