-- ==== Sys2Proof/WellFormed.lean ====
section
/-! DEFINITION. Which terms the spec gives a meaning: every command is well formed (spec/30_encoding.md R89: a command
word has no operand field that could be out of range), and a host access is well formed when R35.5 and R50 allow it. -/

namespace Sys2Proof

/-- Every command is well formed: it has no operands (R89). -/
def Instr.wf (i : Instr) : Bool := Instr.all.contains i

namespace Machine

/-- A window access of `size` bytes either lies outside the 64-byte window (R22) or is an aligned 32-bit one (R35);
one of 0 bytes lies where its address does (log entry 23). -/
def BusAddr.wf (p : Params) (size : Nat) : BusAddr → Bool
  | .slot off => decide (windowBytes ≤ off) || (decide (size = 4) && decide (off % 4 = 0))
  | .bus a =>
    decide (a < p.regBase ∧ a + size ≤ p.regBase) || decide (p.regBase + windowBytes ≤ a) ||
      (decide (size = 4) && decide (p.regBase ≤ a) && decide ((a - p.regBase) % 4 = 0))

/-- The accesses the spec gives a meaning: window accesses by R35.5, data-memory accesses to bytes that exist (R50). -/
def Access.wf (p : Params) : Access → Bool
  | .write dest size _ => dest.wf p size
  | .read src size => src.wf p size
  | .memWrite a bytes => decide (bytes.length = 0) || decide (a + bytes.length ≤ p.memBytes)
  | .memRead a n => decide (n = 0) || decide (a + n ≤ p.memBytes)
  | .reset => true
  | .resetDuringCommand _ => true

end Machine

end Sys2Proof
end

