-- ==== Sys2Proof/Decode.lean ====
section
/-! DEFINITION. Decoding and encoding of command words (spec/30_encoding.md R80-R93). The decoder is total on all 2^32
words: a word selects one of the eleven commands or is rejected for a named reason, and every rejection is the error
ILLEGAL (R87). -/

namespace Sys2Proof

/-- Why a word selects no command. The machine reports all three as ILLEGAL (R87). -/
inductive DecodeReject where
  /-- One of bits 31:7 is set (R85). -/
  | reservedBits
  /-- OP is 0x0 or 0x5-0xF (R81). -/
  | noFamily
  /-- OP names a family that has no command with these INV, D8 and REG bits (R82, R83, R84). -/
  | badFields
deriving DecidableEq, Repr

/-- The fields of a command word below its reserved bits (R80). -/
structure Fields where
  /-- Bits 3:0, the family (R81). -/
  op : BitVec 4
  /-- Bit 4, the direction (R82). -/
  inv : Bool
  /-- Bit 5, the index depth (R83). -/
  d8 : Bool
  /-- Bit 6, the operand form (R84). -/
  reg : Bool
deriving DecidableEq, Repr

/-- The fields a word holds (R80). -/
def fieldsOf (w : Word) : Fields :=
  ⟨w.extractLsb' 0 4, w.getLsbD 4, w.getLsbD 5, w.getLsbD 6⟩

/-- Bits 31:7 of a word (R85). -/
def reservedOf (w : Word) : BitVec 25 := w.extractLsb' 7 25

/-- The case of R93. -/
def selectCommand (f : Fields) : Except DecodeReject Instr :=
  match f.op.toNat, f.inv, f.d8, f.reg with
  | 1, false, false, false => .ok .cenc
  | 1, true, false, false => .ok .cdec
  | 1, false, false, true => .ok .cencr
  | 1, true, false, true => .ok .cdecr
  | 2, false, false, false => .ok .ttile
  | 2, true, false, false => .ok .tlin
  | 3, false, false, false => .ok .pack4
  | 3, true, false, false => .ok .unpk4
  | 3, false, true, false => .ok .pack8
  | 3, true, true, false => .ok .unpk8
  | 4, false, false, false => .ok .quant
  | op, _, _, _ => if 1 ≤ op ∧ op ≤ 4 then .error .badFields else .error .noFamily

/-- Decoding of a command word: the reserved bits first, then the case (R85, R93). -/
def decode (w : Word) : Except DecodeReject Instr :=
  if reservedOf w ≠ 0 then .error .reservedBits else selectCommand (fieldsOf w)

/-- The word that holds the given fields and no reserved bit (R80). -/
def assemble (f : Fields) : Word :=
  f.op.setWidth 32 ||| ((BitVec.ofBool f.inv).setWidth 32 <<< 4) ||| ((BitVec.ofBool f.d8).setWidth 32 <<< 5) |||
    ((BitVec.ofBool f.reg).setWidth 32 <<< 6)

/-- The fields of each command, the columns OP, INV, D8 and REG of R86. -/
def fieldsFor : Instr → Fields
  | .cenc => ⟨1, false, false, false⟩
  | .cdec => ⟨1, true, false, false⟩
  | .cencr => ⟨1, false, false, true⟩
  | .cdecr => ⟨1, true, false, true⟩
  | .ttile => ⟨2, false, false, false⟩
  | .tlin => ⟨2, true, false, false⟩
  | .pack4 => ⟨3, false, false, false⟩
  | .unpk4 => ⟨3, true, false, false⟩
  | .pack8 => ⟨3, false, true, false⟩
  | .unpk8 => ⟨3, true, true, false⟩
  | .quant => ⟨4, false, false, false⟩

/-- Encoding of a command: its one word (R86). -/
def encode (i : Instr) : Word := assemble (fieldsFor i)

/-- The instruction the decoder reads from a command whose bits are `w`, numbered as spec/opcode_table.json numbers
them. Every row of the table is one 32-bit word; with fewer than 32 bits given, the bits above them are 0. -/
def decodeTableWord (nbits w : Nat) : Option Instr :=
  if nbits ≤ 32 ∧ w < 2 ^ 32 then
    match decode (BitVec.ofNat 32 w) with
    | .ok i => some i
    | .error _ => none
  else none

end Sys2Proof
end

