-- ==== Sys2Proof/Machine/Memory.lean ====
section
/-! DEFINITION. The data memory as plain data (spec/20_memory.md R50): its listed bytes, what an address that is not
listed reads as, and the memory that holds given contents (70_reset_and_hazards.md R241). -/

namespace Sys2Proof.Machine

/-- The data memory's listed bytes: addresses strictly rising, none equal to what an unlisted address reads as
(`Memory.wf` in Ops.lean). -/
abbrev Memory := List Host.Cell

/-- What an address that is not listed reads as. It is a matter of representation alone: a memory with any contents
lists its bytes that differ from it (`Memory.ofBytes`; log entry 2). -/
def Memory.unlisted : Byte := 0

/-- The memory whose bytes 0 … n−1 are those of `f`. -/
def Memory.ofBytes (n : Nat) (f : Nat → Byte) : Memory :=
  (List.range n).filterMap fun a => if f a = Memory.unlisted then none else some (a, f a)

end Sys2Proof.Machine
end

