-- ==== Sys2Proof/Machine/State.lean ====
section
/-! DEFINITION. The state of the model (spec/10_state.md R40), its error codes (60_exceptions.md R201), the reasons a
step can stop, and the state after reset (70_reset_and_hazards.md R240, R241). -/

namespace Sys2Proof.Machine

/-- The error codes STATUS.ERRCODE can hold besides 0 (R201). -/
inductive ErrCode where
  /-- 0x01: the command word is not one of the eleven. -/
  | illegal
  /-- 0x02: a shape parameter violates its precondition. -/
  | param
  /-- 0x03: QUANT with fewer colours than palette entries. -/
  | qcount
  /-- 0x04: QUANT with more colours than QMAX. -/
  | capacity
  /-- 0x05: a range is not within the data memory. -/
  | range
  /-- 0x06: the two ranges share a byte. -/
  | overlap
deriving DecidableEq, Repr

/-- The fields of STATUS (R25, R40). Its word is `Status.toWord` in Flags.lean. -/
structure Status where
  /-- Bit 0, DONE. -/
  done : Bool
  /-- Bit 1, ERR. -/
  err : Bool
  /-- Bits 15:8, ERRCODE. -/
  errcode : Byte
deriving DecidableEq, Repr

/-- The whole state (R40), with the parameters of the part (R5) and the model's own view of the host. -/
structure State where
  /-- MEM_BYTES, QMAX and REG_BASE of this part (R5); constant. -/
  params : Params
  /-- CMD, offset 0x04: the last command word written (R24). -/
  cmd : Word
  /-- STATUS, offset 0x08: the outcome of the last command (R25). -/
  status : Status
  /-- SRC, offset 0x0C (R26). -/
  src : Word
  /-- DST, offset 0x10 (R27). -/
  dst : Word
  /-- COUNT, offset 0x14 (R28). -/
  count : Word
  /-- WIDTH, offset 0x18 (R29). -/
  width : Word
  /-- HEIGHT, offset 0x1C (R30). -/
  height : Word
  /-- NCOL, offset 0x20 (R31). -/
  ncol : Word
  /-- CIN, offset 0x24 (R32). -/
  cin : Word
  /-- COUT, offset 0x28 (R33). -/
  cout : Word
  /-- The data memory (R38, R50). -/
  mem : Memory
  /-- The model's own: the host's accesses still to come, oldest first (R14, R91, R254; log entry 3). -/
  pending : List Access
  /-- The model's own: what the host's last access gave back (R255; log entry 4). -/
  reply : Reply
  /-- The model's own: how many interrupted commands have drawn free bytes (R243; log entry 5). -/
  draws : Nat
deriving DecidableEq, Repr

/-- Reasons for a fault. -/
inductive Fault where
  /-- Raised by the host's own read or write of the `n` bytes from `addr`, never by a command, when the data memory
  ends before the last of them (R50). Safe: the spec gives such an access no meaning (log entry 7). -/
  | noSuchByte (addr n : Nat)
deriving DecidableEq, Repr

/-- Reasons for a refusal. -/
inductive Refusal where
  /-- Raised by an arm of exec whose instruction has no meaning yet. Safe: nothing can be proved of it. No arm is in
  this case. -/
  | notModelled (mnemonic : String)
  /-- Raised by a host access to the register window that is not an aligned 32-bit one: the spec gives it no meaning
  and says the model refuses it (R35.5, U4). Safe (log entry 8). -/
  | windowAccess (dest : BusAddr) (size : Nat)
deriving DecidableEq, Repr

/-- The launch state of the part `p` with launch memory `mem0`: every register 0 and STATUS 0 (R240), the data memory
the parameter mem0, with no law on its values (R38, R241; log entry 2), and no host access pending (log entry 3). Any
part and any mem0 may be given; the bytes of `mem0` from MEM_BYTES on are not used. -/
def State.launch (p : Params) (mem0 : Nat → Byte) : State where
  params := p
  cmd := 0
  status := ⟨false, false, 0⟩
  src := 0
  dst := 0
  count := 0
  width := 0
  height := 0
  ncol := 0
  cin := 0
  cout := 0
  mem := Memory.ofBytes p.memBytes mem0
  pending := []
  reply := .nothing
  draws := 0

/-- The state right after reset: the launch state of a part and a launch memory of which nothing is known (R5, R240,
R241; log entries 1 and 2). -/
def State.reset : State := State.launch Config.launch Config.mem0

end Sys2Proof.Machine
end

