-- ==== Sys2Proof/Machine/Flags.lean ====
section
/-! DEFINITION. STATUS: the numbers of the error codes (spec/60_exceptions.md R201), the outcomes a command can leave
(R203, R204), and the word software reads (10_state.md R25). -/

namespace Sys2Proof.Machine

/-- The number of an error code in STATUS.ERRCODE (R201). -/
def ErrCode.code : ErrCode → Byte
  | .illegal => 1
  | .param => 2
  | .qcount => 3
  | .capacity => 4
  | .range => 5
  | .overlap => 6

/-- STATUS after reset, before the first command (R25, R240). -/
def Status.clear : Status := ⟨false, false, 0⟩

/-- STATUS after a command that raised no error (R204). -/
def Status.success : Status := ⟨true, false, 0⟩

/-- STATUS after a command that raised `c` (R203). -/
def Status.error (c : ErrCode) : Status := ⟨false, true, c.code⟩

/-- The 32 bits a read of STATUS returns: DONE at bit 0, ERR at bit 1, ERRCODE at 15:8, the rest 0 (R25, R34). -/
def Status.toWord (t : Status) : Word :=
  (BitVec.ofBool t.done).setWidth 32 ||| ((BitVec.ofBool t.err).setWidth 32 <<< 1) ||| (t.errcode.setWidth 32 <<< 8)

/-- The values STATUS can hold: after reset, success, or one of the six errors (R25). -/
def Status.legal (t : Status) : Bool :=
  t == Status.clear || t == Status.success ||
    [ErrCode.illegal, .param, .qcount, .capacity, .range, .overlap].any fun c => t == Status.error c

end Sys2Proof.Machine
end

