-- ==== Sys2Proof/Machine/Ops.lean ====
section
/-! DEFINITION. The named operations over memory and registers: bytes and little-endian values of the data memory
(spec/20_memory.md R50-R53), ending a command with an error or a success (60_exceptions.md R203, R204), the two phases
of a command (00_scope.md R9), and reset of the registers (70_reset_and_hazards.md R240). -/

namespace Sys2Proof.Machine

/-! ## The data memory -/

/-- The byte at an address. -/
def Memory.read : Memory → Nat → Byte
  | [], _ => Memory.unlisted
  | (k, v) :: rest, a => if k = a then v else Memory.read rest a

/-- List the byte `v` at address `a`, in its place in the rising order. -/
def Memory.insert : Memory → Nat → Byte → Memory
  | [], a, v => [(a, v)]
  | (k, u) :: rest, a, v =>
    if a < k then (a, v) :: (k, u) :: rest
    else if a = k then (a, v) :: rest
    else (k, u) :: Memory.insert rest a v

/-- Drop the entry of address `a`. -/
def Memory.erase (m : Memory) (a : Nat) : Memory := m.filter fun c => c.1 ≠ a

/-- Store a byte, keeping the canonical form: a byte that an unlisted address reads as is not listed. -/
def Memory.write (m : Memory) (a : Nat) (v : Byte) : Memory :=
  if v = Memory.unlisted then m.erase a else m.insert a v

/-- Store bytes one after the other, first cell first. -/
def Memory.storeAll : Memory → List Host.Cell → Memory
  | m, [] => m
  | m, (a, v) :: rest => Memory.storeAll (m.write a v) rest

/-- The canonical form: addresses strictly rising, no entry equal to what an unlisted address reads as. -/
abbrev Memory.wf (m : Memory) : Prop :=
  m.Pairwise (fun x y => x.1 < y.1) ∧ ∀ c ∈ m, c.2 ≠ Memory.unlisted

/-- MemRead(a, n): the n-byte little-endian value at a … a+n−1 (R52). -/
def Memory.readLE (m : Memory) (a : Nat) : Nat → Nat
  | 0 => 0
  | n + 1 => (m.read a).toNat + 256 * Memory.readLE m (a + 1) n

/-- The bytes at a … a+n−1, lowest address first. -/
def Memory.readBytes (m : Memory) (a n : Nat) : List Byte := (List.range n).map fun k => m.read (a + k)

/-- The cells MemWrite(a, n, v) stores: byte k is (v >> 8k) & 0xFF (R53). -/
def leCells (a n v : Nat) : List Host.Cell :=
  (List.range n).map fun k => (a + k, BitVec.ofNat 8 (v >>> (8 * k)))

/-- MemWrite(a, n, v) (R53). -/
def Memory.writeLE (m : Memory) (a n v : Nat) : Memory := m.storeAll (leCells a n v)

/-- The cells of bytes laid at a, a+1, …. -/
def bytesAt : Nat → List Byte → List Host.Cell
  | _, [] => []
  | a, b :: bs => (a, b) :: bytesAt (a + 1) bs

/-! ## Registers and the end of a command -/

/-- The state with bytes stored in the data memory. -/
def State.store (s : State) (cells : List Host.Cell) : State := { s with mem := s.mem.storeAll cells }

/-- raise Error(code): STATUS records the code and nothing else changes (R203). The block has no return from an error
(R207). -/
def State.raiseError (s : State) (c : ErrCode) : State := { s with status := Status.error c }

/-- The end of a command that raised no error (R204). -/
def State.complete (s : State) : State := { s with status := Status.success }

/-- One check of a check phase: whether it fails, and the code it then raises (R9, R205). -/
structure Check where
  /-- Whether the check fails. -/
  fails : Bool
  /-- The error a failure raises. -/
  code : ErrCode
deriving DecidableEq, Repr

/-- The error of the first failing check, if one fails (R9, R205). -/
def firstError : List Check → Option ErrCode
  | [] => none
  | c :: rest => if c.fails then some c.code else firstError rest

/-- A command's two phases: the checks in order, the first failing one raising its error; then the perform phase,
which cannot fail, and the success (R9, R203, R204). -/
def runCommand (checks : List Check) (perform : State → State) (s : State) : Host.Outcome State Fault Refusal :=
  match firstError checks with
  | some c => .next (s.raiseError c)
  | none => .next (perform s).complete

/-- Reset of the window's registers (R240). The data memory is the platform's and keeps its contents (R241); the
parameters, the host's own program and the model's draw counter are no registers of the block. -/
def State.resetRegisters (s : State) : State :=
  { s with
    cmd := 0, status := Status.clear, src := 0, dst := 0, count := 0, width := 0, height := 0, ncol := 0, cin := 0,
    cout := 0 }

end Sys2Proof.Machine
end

