-- ==== Sys2Proof/Machine/Operands.lean ====
section
/-! DEFINITION. The operands of a command: its source and destination ranges and their checks (spec/20_memory.md R57,
R58, R60), the shape checks of each command (41_transpose.md R121, 42_pack.md R140, R141, 43_quant.md R160), and the
layouts of the values a command moves (R54, R55, R56). -/

namespace Sys2Proof.Machine

/-! ## Ranges -/

/-- A range [a, a+L) is in range iff L = 0 or a + L ≤ MEM_BYTES, computed exactly (R58). -/
def inRange (p : Params) (a len : Nat) : Bool := decide (len = 0) || decide (a + len ≤ p.memBytes)

/-- Two ranges overlap iff neither is empty and they share a byte (R57). -/
def overlaps (a la b lb : Nat) : Bool :=
  decide (0 < la) && decide (0 < lb) && decide (a < b + lb) && decide (b < a + la)

/-- Ls, the length of the source range (the table of R58); a register-form command has none. -/
def srcLen (i : Instr) (s : State) : Nat :=
  match i with
  | .cenc => 4 * s.count.toNat
  | .cdec => 2 * s.count.toNat
  | .cencr => 0
  | .cdecr => 0
  | .ttile => s.width.toNat * s.height.toNat
  | .tlin => s.width.toNat * s.height.toNat
  | .pack4 => s.count.toNat
  | .unpk4 => s.count.toNat / 2
  | .pack8 => s.count.toNat
  | .unpk8 => s.count.toNat
  | .quant => 4 * s.count.toNat

/-- Ld, the length of the destination range (the table of R58); a register-form command has none. -/
def dstLen (i : Instr) (s : State) : Nat :=
  match i with
  | .cenc => 2 * s.count.toNat
  | .cdec => 4 * s.count.toNat
  | .cencr => 0
  | .cdecr => 0
  | .ttile => s.width.toNat * s.height.toNat
  | .tlin => s.width.toNat * s.height.toNat
  | .pack4 => s.count.toNat / 2
  | .unpk4 => s.count.toNat
  | .pack8 => s.count.toNat
  | .unpk8 => s.count.toNat
  | .quant => 2 * s.ncol.toNat

/-- RANGE on the source, RANGE on the destination, OVERLAP, in this order (R57, R58, R205). -/
def rangeChecks (p : Params) (src ls dst ld : Nat) : List Check :=
  [⟨!inRange p src ls, .range⟩, ⟨!inRange p dst ld, .range⟩, ⟨overlaps src ls dst ld, .overlap⟩]

/-! ## Shape checks -/

/-- WIDTH zero, WIDTH or HEIGHT no multiple of 8 (R121). -/
def tileShapeChecks (s : State) : List Check :=
  [⟨decide (s.width.toNat = 0 ∨ s.width.toNat % 8 ≠ 0), .param⟩, ⟨decide (s.height.toNat % 8 ≠ 0), .param⟩]

/-- COUNT odd (R140, R141). -/
def evenCountChecks (s : State) : List Check := [⟨decide (s.count.toNat % 2 ≠ 0), .param⟩]

/-- NCOL outside 1 … 256, then COUNT < NCOL, then COUNT > QMAX (R160). -/
def quantShapeChecks (s : State) : List Check :=
  [⟨decide (s.ncol.toNat = 0 ∨ 256 < s.ncol.toNat), .param⟩, ⟨decide (s.count.toNat < s.ncol.toNat), .qcount⟩,
    ⟨decide (s.params.qmax < s.count.toNat), .capacity⟩]

/-- The checks a command makes before its range checks (R205). -/
def shapeChecks (i : Instr) (s : State) : List Check :=
  match i with
  | .cenc => []
  | .cdec => []
  | .cencr => []
  | .cdecr => []
  | .ttile => tileShapeChecks s
  | .tlin => tileShapeChecks s
  | .pack4 => evenCountChecks s
  | .unpk4 => evenCountChecks s
  | .pack8 => []
  | .unpk8 => []
  | .quant => quantShapeChecks s

/-- The whole check phase of a command, in the order of R205. A register-form command's ranges are empty and its
checks never fail (R104, R105). -/
def commandChecks (i : Instr) (s : State) : List Check :=
  shapeChecks i s ++ rangeChecks s.params s.src.toNat (srcLen i s) s.dst.toNat (dstLen i s)

/-! ## The values a command moves -/

/-- The three channels a command reads of a Color24; no command reads the alpha (R102, R104, R161). -/
structure Rgb where
  /-- Red. -/
  r : Byte
  /-- Green. -/
  g : Byte
  /-- Blue. -/
  b : Byte
deriving DecidableEq, Repr

/-- The four channels of a Color24 (R10). -/
structure Color24 where
  /-- Red. -/
  r : Byte
  /-- Green. -/
  g : Byte
  /-- Blue. -/
  b : Byte
  /-- Alpha. -/
  a : Byte
deriving DecidableEq, Repr

/-- Colour i of a Color24 array at `base`: R, G, B at rising addresses, the alpha byte not read (R54). -/
def Memory.rgb (m : Memory) (base i : Nat) : Rgb :=
  ⟨m.read (base + 4 * i), m.read (base + 4 * i + 1), m.read (base + 4 * i + 2)⟩

/-- The channels of a Color24 in a register: R = v[7:0], G = v[15:8], B = v[23:16] (R54). -/
def rgbOfWord (v : Word) : Rgb := ⟨v.extractLsb' 0 8, v.extractLsb' 8 8, v.extractLsb' 16 8⟩

/-- A Color24 as a register's word (R54). -/
def Color24.toWord (c : Color24) : Word :=
  (c.a.setWidth 32 <<< 24) ||| (c.b.setWidth 32 <<< 16) ||| (c.g.setWidth 32 <<< 8) ||| c.r.setWidth 32

/-- The cells of a Color24 stored at `a`: R lowest, then G, B, A (R54). -/
def Color24.cells (c : Color24) (a : Nat) : List Host.Cell := [(a, c.r), (a + 1, c.g), (a + 2, c.b), (a + 3, c.a)]

/-- Entry i of a Color15 array at `base`, little-endian (R55). -/
def Memory.color15 (m : Memory) (base i : Nat) : Half := BitVec.ofNat 16 (m.readLE (base + 2 * i) 2)

end Sys2Proof.Machine
end

