-- ==== Sys2Proof/Machine/Color.lean ====
section
/-! DEFINITION. The colour converter: the two conversion functions (spec/40_color.md R100, R101) and the meanings of
CENC, CDEC, CENCR and CDECR (R102-R105). -/

namespace Sys2Proof.Machine

/-- enc15(r, g, b): each channel shifted right 3 bits, packed B, G, R from the top (R100). -/
def enc15 (c : Rgb) : Half :=
  ((c.b >>> 3).setWidth 16 <<< 10) ||| ((c.g >>> 3).setWidth 16 <<< 5) ||| (c.r >>> 3).setWidth 16

/-- expand5(v): a 5-bit channel widened by repeating its top bits (R101). -/
def expand5 (v : BitVec 5) : Byte := (v.setWidth 8 <<< 3) ||| (v.setWidth 8 >>> 2)

/-- dec24(c): the three channels widened, alpha fully opaque; bit 15 is not read (R101). -/
def dec24 (c : Half) : Color24 :=
  ⟨expand5 (c.extractLsb' 0 5), expand5 (c.extractLsb' 5 5), expand5 (c.extractLsb' 10 5), 0xFF⟩

/-- The stores of CENC: entry i is the encoding of colour i (R102). -/
def cencCells (m : Memory) (src dst n : Nat) : List Host.Cell :=
  (List.range n).flatMap fun i => leCells (dst + 2 * i) 2 (enc15 (m.rgb src i)).toNat

/-- The stores of CDEC: the four channels of entry i (R103). -/
def cdecCells (m : Memory) (src dst n : Nat) : List Host.Cell :=
  (List.range n).flatMap fun i => (dec24 (m.color15 src i)).cells (dst + 4 * i)

/-- CENC (R102). -/
def execCenc (s : State) : Host.Outcome State Fault Refusal :=
  runCommand (commandChecks .cenc s)
    (fun s => s.store (cencCells s.mem s.src.toNat s.dst.toNat s.count.toNat)) s

/-- CDEC (R103). -/
def execCdec (s : State) : Host.Outcome State Fault Refusal :=
  runCommand (commandChecks .cdec s)
    (fun s => s.store (cdecCells s.mem s.src.toNat s.dst.toNat s.count.toNat)) s

/-- CENCR: COUT is the encoding of CIN, zero-extended (R104, R55). -/
def execCencr (s : State) : Host.Outcome State Fault Refusal :=
  runCommand (commandChecks .cencr s) (fun s => { s with cout := (enc15 (rgbOfWord s.cin)).setWidth 32 }) s

/-- CDECR: COUT is the decoding of CIN[15:0] (R105, R54). -/
def execCdecr (s : State) : Host.Outcome State Fault Refusal :=
  runCommand (commandChecks .cdecr s) (fun s => { s with cout := (dec24 (s.cin.extractLsb' 0 16)).toWord }) s

end Sys2Proof.Machine
end

