-- ==== Sys2Proof/Machine/Pack.lean ====
section
/-! DEFINITION. The index packer: the meanings of PACK4, UNPK4, PACK8 and UNPK8 (spec/42_pack.md R140-R143). -/

namespace Sys2Proof.Machine

/-- The byte that holds two 4-bit indices, the earlier one in the low nibble; an index of 16 or more gives only its
low nibble (R140, R217). -/
def packNibbles (lo hi : Byte) : Byte := (lo &&& 0xF#8) ||| ((hi &&& 0xF#8) <<< 4)

/-- The stores of PACK4 for `n` indices (R140). -/
def pack4Cells (m : Memory) (src dst n : Nat) : List Host.Cell :=
  (List.range (n / 2)).map fun i => (dst + i, packNibbles (m.read (src + 2 * i)) (m.read (src + 2 * i + 1)))

/-- The stores of UNPK4 for `n` indices (R141). -/
def unpk4Cells (m : Memory) (src dst n : Nat) : List Host.Cell :=
  (List.range (n / 2)).flatMap fun i =>
    [(dst + 2 * i, m.read (src + i) &&& 0xF#8), (dst + 2 * i + 1, m.read (src + i) >>> 4)]

/-- The stores of PACK8: a copy through the source's `& 0xFF` (R142). -/
def pack8Cells (m : Memory) (src dst n : Nat) : List Host.Cell :=
  (List.range n).map fun i => (dst + i, m.read (src + i) &&& 0xFF#8)

/-- The stores of UNPK8: a copy (R143). -/
def unpk8Cells (m : Memory) (src dst n : Nat) : List Host.Cell :=
  (List.range n).map fun i => (dst + i, m.read (src + i))

/-- PACK4 (R140). -/
def execPack4 (s : State) : Host.Outcome State Fault Refusal :=
  runCommand (commandChecks .pack4 s)
    (fun s => s.store (pack4Cells s.mem s.src.toNat s.dst.toNat s.count.toNat)) s

/-- UNPK4 (R141). -/
def execUnpk4 (s : State) : Host.Outcome State Fault Refusal :=
  runCommand (commandChecks .unpk4 s)
    (fun s => s.store (unpk4Cells s.mem s.src.toNat s.dst.toNat s.count.toNat)) s

/-- PACK8 (R142). -/
def execPack8 (s : State) : Host.Outcome State Fault Refusal :=
  runCommand (commandChecks .pack8 s)
    (fun s => s.store (pack8Cells s.mem s.src.toNat s.dst.toNat s.count.toNat)) s

/-- UNPK8 (R143). -/
def execUnpk8 (s : State) : Host.Outcome State Fault Refusal :=
  runCommand (commandChecks .unpk8 s)
    (fun s => s.store (unpk8Cells s.mem s.src.toNat s.dst.toNat s.count.toNat)) s

end Sys2Proof.Machine
end

