-- ==== Sys2Proof/Machine/Quant.lean ====
section
/-! DEFINITION. The palette quantizer: the steps of spec/43_quant.md R161-R166 and the meaning of QUANT (R167). -/

namespace Sys2Proof.Machine

/-- A colour channel the quantizer can sort by (R163). -/
inductive Channel where
  | r | g | b
deriving DecidableEq, Repr

/-- The 8-bit value of one channel of a colour, as a natural number. -/
def Rgb.channel (c : Rgb) : Channel → Nat
  | .r => c.r.toNat
  | .g => c.g.toNat
  | .b => c.b.toNat

/-- The input sequence: the M colours at `base`, in order, repeats kept (R161). -/
def quantInput (m : Memory) (base n : Nat) : List Rgb := (List.range n).map fun i => m.rgb base i

/-- min over i of one channel (R162). -/
def channelMin (k : Channel) (cs : List Rgb) : Nat := cs.foldl (fun acc c => min acc (c.channel k)) 255

/-- max over i of one channel (R162). -/
def channelMax (k : Channel) (cs : List Rgb) : Nat := cs.foldl (fun acc c => max acc (c.channel k)) 0

/-- range = max − min (R162). -/
def channelRange (k : Channel) (cs : List Rgb) : Nat := channelMax k cs - channelMin k cs

/-- The key channel: the largest range, ties in the order R, G, B (R163). -/
def keyChannel (cs : List Rgb) : Channel :=
  if channelRange .g cs ≤ channelRange .r cs ∧ channelRange .b cs ≤ channelRange .r cs then .r
  else if channelRange .b cs ≤ channelRange .g cs then .g
  else .b

/-- The sequence sorted ascending by the key channel; colours with equal keys keep their input order (R164; of the
orders the source allows, the spec takes the stable one, U1, log entry 11). -/
def sortByKey (k : Channel) (cs : List Rgb) : List Rgb :=
  cs.insertionSort fun x y => x.channel k ≤ y.channel k

/-- The position in the sorted sequence of bucket j's representative, for buckets of `b` colours (R165). -/
def repIndex (b j : Nat) : Nat := j * b + b / 2

/-- The representatives of the `n` buckets of a sorted sequence; the remainder of the sequence is in no bucket (R165,
log entry 12). The position always exists (R160: M ≥ N ≥ 1), so the black colour for a missing one is never taken. -/
def representatives (sorted : List Rgb) (n : Nat) : List Rgb :=
  (List.range n).map fun j => sorted.getD (repIndex (sorted.length / n) j) ⟨0, 0, 0⟩

/-- The N-entry palette of a colour sequence (R162-R166). -/
def reducePalette (cs : List Rgb) (n : Nat) : List Half :=
  (representatives (sortByKey (keyChannel cs) cs) n).map enc15

/-- The cells of a palette stored at `a`: entry j little-endian at a + 2j (R55, R166). -/
def paletteCells : Nat → List Half → List Host.Cell
  | _, [] => []
  | a, c :: rest => leCells a 2 c.toNat ++ paletteCells (a + 2) rest

/-- The stores of QUANT (R167). -/
def quantCells (m : Memory) (src dst count ncol : Nat) : List Host.Cell :=
  paletteCells dst (reducePalette (quantInput m src count) ncol)

/-- QUANT (R167). -/
def execQuant (s : State) : Host.Outcome State Fault Refusal :=
  runCommand (commandChecks .quant s)
    (fun s => s.store (quantCells s.mem s.src.toNat s.dst.toNat s.count.toNat s.ncol.toNat)) s

end Sys2Proof.Machine
end

