-- ==== Sys2Proof/Machine/Tile.lean ====
section
/-! DEFINITION. The tile transposer: the coordinate map (spec/41_transpose.md R120) and the meanings of TTILE and TLIN
(R122, R123). -/

namespace Sys2Proof.Machine

/-- L(W, t): the linear position of the pixel at tiled position t (R120; the loop variable is the tiled index,
90_conflicts.md C4). -/
def linearPos (w t : Nat) : Nat :=
  let tilesAcross := w / 8
  let tileIndex := t / 64
  let withinTile := t % 64
  let x := tileIndex % tilesAcross * 8 + withinTile % 8
  let y := tileIndex / tilesAcross * 8 + withinTile / 8
  x + y * w

/-- The stores of TTILE: tiled position t takes the byte at linear position L(W, t) (R122). -/
def ttileCells (m : Memory) (src dst w n : Nat) : List Host.Cell :=
  (List.range n).map fun t => (dst + t, m.read (src + linearPos w t))

/-- The stores of TLIN: linear position L(W, t) takes the byte at tiled position t (R123). -/
def tlinCells (m : Memory) (src dst w n : Nat) : List Host.Cell :=
  (List.range n).map fun t => (dst + linearPos w t, m.read (src + t))

/-- TTILE: linear to tiled (R122). -/
def execTtile (s : State) : Host.Outcome State Fault Refusal :=
  runCommand (commandChecks .ttile s)
    (fun s => s.store
      (ttileCells s.mem s.src.toNat s.dst.toNat s.width.toNat (s.width.toNat * s.height.toNat))) s

/-- TLIN: tiled to linear (R123). -/
def execTlin (s : State) : Host.Outcome State Fault Refusal :=
  runCommand (commandChecks .tlin s)
    (fun s => s.store
      (tlinCells s.mem s.src.toNat s.dst.toNat s.width.toNat (s.width.toNat * s.height.toNat))) s

end Sys2Proof.Machine
end

