-- ==== Sys2Proof/Machine/Dispatch.lean ====
section
/-! DEFINITION. exec: one arm per command (spec/30_encoding.md R93). -/

namespace Sys2Proof.Machine

/-- The effect of a decoded command on the state its CMD write found, CMD already stored (R24, R93). -/
def exec (i : Instr) (s : State) : Host.Outcome State Fault Refusal :=
  match i with
  | .cenc => Sys2Proof.Machine.execCenc s
  | .cdec => Sys2Proof.Machine.execCdec s
  | .cencr => Sys2Proof.Machine.execCencr s
  | .cdecr => Sys2Proof.Machine.execCdecr s
  | .ttile => Sys2Proof.Machine.execTtile s
  | .tlin => Sys2Proof.Machine.execTlin s
  | .pack4 => Sys2Proof.Machine.execPack4 s
  | .unpk4 => Sys2Proof.Machine.execUnpk4 s
  | .pack8 => Sys2Proof.Machine.execPack8 s
  | .unpk8 => Sys2Proof.Machine.execUnpk8 s
  | .quant => Sys2Proof.Machine.execQuant s

end Sys2Proof.Machine
end

