-- ==== Sys2Proof/Machine/Window.lean ====
section
/-! DEFINITION. The register window (spec/10_state.md R22-R35): where a host access lands, what each slot reads as, and
what a write of a slot stores. -/

namespace Sys2Proof.Machine

/-- The value of ID (R23). -/
def idWord : Word := 0x4E420007

/-- The offset of a register by name (R22). -/
def Reg.offset : Reg → Nat
  | .id => 0x00
  | .cmd => 0x04
  | .status => 0x08
  | .src => 0x0C
  | .dst => 0x10
  | .count => 0x14
  | .width => 0x18
  | .height => 0x1C
  | .ncol => 0x20
  | .cin => 0x24
  | .cout => 0x28

/-- What a 32-bit read of a slot returns: a register, or 0 for a reserved slot (R22, R34). -/
def State.readSlot (s : State) (off : Nat) : Word :=
  match off with
  | 0x00 => idWord
  | 0x04 => s.cmd
  | 0x08 => s.status.toWord
  | 0x0C => s.src
  | 0x10 => s.dst
  | 0x14 => s.count
  | 0x18 => s.width
  | 0x1C => s.height
  | 0x20 => s.ncol
  | 0x24 => s.cin
  | 0x28 => s.cout
  | _ => 0

/-- What a 32-bit write of a slot other than CMD stores: all 32 bits of a read-write register; nothing for ID, STATUS,
COUT and the reserved slots (R35.2, R35.3). -/
def State.writeSlot (s : State) (off : Nat) (v : Word) : State :=
  match off with
  | 0x0C => { s with src := v }
  | 0x10 => { s with dst := v }
  | 0x14 => { s with count := v }
  | 0x18 => { s with width := v }
  | 0x1C => { s with height := v }
  | 0x20 => { s with ncol := v }
  | 0x24 => { s with cin := v }
  | _ => s

/-- Where a bus access lands. -/
inductive Reach where
  /-- It lies outside the window: it does not reach the block (R22). -/
  | outside
  /-- It is an aligned 32-bit access of the slot at this offset (R35.1). -/
  | slot (off : Nat)
  /-- It touches the window in another width or alignment (R35.5). -/
  | badForm
deriving DecidableEq, Repr

/-- An access of `size` bytes that starts at an offset inside the window (R35). One of 0 bytes is an access of another
width than 32 bits (DESIGN CHOICE, log entry 23). -/
def reachAt (off size : Nat) : Reach := if size = 4 ∧ off % 4 = 0 then .slot off else .badForm

/-- Where an access of `size` bytes lands in the part's window at REG_BASE (R22, R35; log entries 8 and 9). One of 0
bytes lands where its address lies, in both forms of an address alike (DESIGN CHOICE, log entry 23). -/
def reach (p : Params) (size : Nat) : BusAddr → Reach
  | .slot off => if windowBytes ≤ off then .outside else reachAt off size
  | .bus a =>
    if a < p.regBase ∧ a + size ≤ p.regBase ∨ p.regBase + windowBytes ≤ a then .outside
    else if a < p.regBase then .badForm
    else reachAt (a - p.regBase) size

end Sys2Proof.Machine
end

