-- ==== Sys2Proof/Machine/Bus.lean ====
section
/-! DEFINITION. One access of the host: a CMD write that runs a command (spec/30_encoding.md R93), the other window
accesses (10_state.md R35), direct data-memory accesses (R38), and reset (70_reset_and_hazards.md R240-R243); the
table of R255. Step.lean takes the next pending access and calls `hostStep`. -/

namespace Sys2Proof.Machine

/-- A host write of `w` to CMD: CMD holds the word; then the command it names runs to completion, or the word raises
ILLEGAL (R24, R87, R93, R250). -/
def startCommand (w : Word) (s : State) : Host.Outcome State Fault Refusal :=
  match decode w with
  | .ok i => exec i { s with cmd := w }
  | .error _ => .next ({ s with cmd := w }.raiseError .illegal)

/-- An aligned 32-bit write of a slot (R22, R35, R62). -/
def windowWrite (off : Nat) (v : Word) (s : State) : Host.Outcome State Fault Refusal :=
  if off = Reg.cmd.offset then startCommand v s else .next (s.writeSlot off v)

/-- The destination bytes of an interrupted command that exist, each with a fresh free value (R243, U3; log entry 5). -/
def tornCells (s : State) (i : Instr) : List Host.Cell :=
  (List.range (min (dstLen i s) (s.params.memBytes - s.dst.toNat))).map fun k => (s.dst.toNat + k, Config.tornByte s.draws (s.dst.toNat + k))

/-- What an interrupted CMD write of `w` leaves of the data memory: every destination byte of the command is free,
whether or not its checks would have passed (R243, U3); an illegal word names no command and has no destination range
(R87, R243; log entry 6). -/
def tearMemory (w : Word) (s : State) : State :=
  match decode w with
  | .ok i => s.store (tornCells s i)
  | .error _ => s

/-- Reset asserted while a CMD write of `w` has not completed: the command is abandoned and the registers take their
reset values (R243). -/
def resetDuring (w : Word) (s : State) : State :=
  { (tearMemory w s).resetRegisters with draws := s.draws + 1 }

/-- The effect of one access (R255). The reply is what the host gets back. -/
def access (a : Access) (s : State) : Host.Outcome State Fault Refusal :=
  match a with
  | .write dest size v =>
    match reach s.params size dest with
    | .outside => .next s
    | .slot off => windowWrite off v s
    | .badForm => .refused (.windowAccess dest size)
  | .read src size =>
    match reach s.params size src with
    | .outside => .next s
    | .slot off => .next { s with reply := .word (s.readSlot off) }
    | .badForm => .refused (.windowAccess src size)
  | .memWrite a bytes =>
    if inRange s.params a bytes.length then .next (s.store (bytesAt a bytes))
    else .fault (.noSuchByte a bytes.length)
  | .memRead a n =>
    if inRange s.params a n then .next { s with reply := .bytes (s.mem.readBytes a n) }
    else .fault (.noSuchByte a n)
  | .reset => .next s.resetRegisters
  | .resetDuringCommand w => .next (resetDuring w s)

/-- The host's next access in program order (R65, R254); with none pending the block holds its state (R216). -/
def hostStep (s : State) : Host.Outcome State Fault Refusal :=
  match s.pending with
  | [] => .next s
  | a :: rest => access a { s with pending := rest, reply := .nothing }

/-- The state in which the host's next access is an aligned 32-bit write of `w` to CMD. -/
def State.withCommand (s : State) (w : Word) : State :=
  { s with pending := .write (.slot Reg.cmd.offset) 4 w :: s.pending }

end Sys2Proof.Machine
end

