-- ==== Sys2Proof/Machine/Step.lean ====
section
/-! DEFINITION. The step: the host's next access, performed to its end (spec/20_memory.md R65, 70_reset_and_hazards.md
R250). The block fetches nothing (10_state.md R21): a command reaches it as the data of a CMD write. -/

namespace Sys2Proof.Machine

/-- One step of the machine. -/
def step (s : State) : Host.Outcome State Fault Refusal := hostStep s

/-- The state whose next step is the host's CMD write of the command word of bits `w`, every bit above `nbits` 0. It
stands for the host's program, which comes from outside the block (log entry 3). -/
def State.withFetchWord (s : State) (nbits w : Nat) : State := s.withCommand (BitVec.ofNat 32 (w % 2 ^ nbits))

end Sys2Proof.Machine
end

