-- ==== Sys2Proof/Machine/Program.lean ====
section
/-! DEFINITION. Host program syntax as data: the lines of spec/30_encoding.md R91 and the pseudo-instructions of R92,
with the accesses they make; and a run (70_reset_and_hazards.md R254). -/

namespace Sys2Proof.Machine

/-- One line of a host program (R91). -/
inductive Line where
  /-- `wr NAME, v`. -/
  | wr (r : Reg) (v : Word)
  /-- `rd NAME`. -/
  | rd (r : Reg)
  /-- `mw a: b0 b1 …`. -/
  | mw (a : Nat) (bytes : List Byte)
  /-- `mr a, n`. -/
  | mr (a n : Nat)
  /-- A mnemonic of R86, alone. -/
  | command (i : Instr)
deriving DecidableEq, Repr

/-- The access a line makes (R91). -/
def Line.access : Line → Access
  | .wr r v => .write (.slot r.offset) 4 v
  | .rd r => .read (.slot r.offset) 4
  | .mw a bytes => .memWrite a bytes
  | .mr a n => .memRead a n
  | .command i => .write (.slot Reg.cmd.offset) 4 (encode i)

/-- The encoding of a line that writes the window: the pair (offset, value) of its bus write (R91). -/
def Line.encoding : Line → Option (Nat × Word)
  | .wr r v => some (r.offset, v)
  | .command i => some (Reg.cmd.offset, encode i)
  | .rd _ => none
  | .mw _ _ => none
  | .mr _ _ => none

/-- The pseudo-instructions (R92). Each argument is the value of a register write, so it is a word (R8). -/
inductive Pseudo where
  | cenc (s d n : Word)
  | cdec (s d n : Word)
  | cencr (c : Word)
  | cdecr (c : Word)
  | ttile (s d w h : Word)
  | tlin (s d w h : Word)
  | pack4 (s d n : Word)
  | unpk4 (s d n : Word)
  | pack8 (s d n : Word)
  | unpk8 (s d n : Word)
  | quant (s d m n : Word)
  | topacked4 (s t d w h : Word)
  | topacked8 (s t d w h : Word)
  | frompacked4 (s t d w h : Word)
  | frompacked8 (s t d w h : Word)
deriving DecidableEq, Repr

/-- The lines of a command with SRC, DST and COUNT operands (R92). -/
def countLines (i : Instr) (s d n : Word) : List Line := [.wr .src s, .wr .dst d, .wr .count n, .command i]

/-- The lines of a command with SRC, DST, WIDTH and HEIGHT operands (R92). -/
def shapeLines (i : Instr) (s d w h : Word) : List Line :=
  [.wr .src s, .wr .dst d, .wr .width w, .wr .height h, .command i]

/-- The value w·h of a COUNT write, when it is a 32-bit value; R92 gives no line for a larger one (R8, log entry
19). -/
def pixelCount (w h : Word) : Option Word :=
  if w.toNat * h.toNat < 2 ^ 32 then some (BitVec.ofNat 32 (w.toNat * h.toNat)) else none

/-- The lines a pseudo-instruction expands to, in order (R92). -/
def Pseudo.expand : Pseudo → Option (List Line)
  | .cenc s d n => some (countLines .cenc s d n)
  | .cdec s d n => some (countLines .cdec s d n)
  | .cencr c => some [.wr .cin c, .command .cencr]
  | .cdecr c => some [.wr .cin c, .command .cdecr]
  | .ttile s d w h => some (shapeLines .ttile s d w h)
  | .tlin s d w h => some (shapeLines .tlin s d w h)
  | .pack4 s d n => some (countLines .pack4 s d n)
  | .unpk4 s d n => some (countLines .unpk4 s d n)
  | .pack8 s d n => some (countLines .pack8 s d n)
  | .unpk8 s d n => some (countLines .unpk8 s d n)
  | .quant s d m n => some [.wr .src s, .wr .dst d, .wr .count m, .wr .ncol n, .command .quant]
  | .topacked4 s t d w h => (pixelCount w h).map fun n => shapeLines .ttile s t w h ++ countLines .pack4 t d n
  | .topacked8 s t d w h => (pixelCount w h).map fun n => shapeLines .ttile s t w h ++ countLines .pack8 t d n
  | .frompacked4 s t d w h => (pixelCount w h).map fun n => countLines .unpk4 s t n ++ shapeLines .tlin t d w h
  | .frompacked8 s t d w h => (pixelCount w h).map fun n => countLines .unpk8 s t n ++ shapeLines .tlin t d w h

/-- The state of a host that is about to run these lines. -/
def State.withLines (s : State) (ls : List Line) : State := { s with pending := ls.map Line.access ++ s.pending }

/-- A run: the host program `ls` executed from the launch state of the part `p` with launch memory `mem0`, one step a
line; its outcome after the last line holds the run's final state (R241, R254). -/
def runProgram (p : Params) (mem0 : Nat → Byte) (ls : List Line) : Host.Outcome State Fault Refusal :=
  Sys2Proof.core.run ls.length ((State.launch p mem0).withLines ls)

end Sys2Proof.Machine
end

