-- ==== Sys2Proof/Safety.lean ====
section
/-! DEFINITION. The terms claims use: when a command runs without error and how it ends when it does not, what it may
touch, the spec's formulas on natural numbers (spec/00_scope.md R7), and the invariant every step keeps. -/

namespace Sys2Proof.Machine

/-! ## The checks of a command, in the spec's words -/

/-- The source range is empty or ends by MEM_BYTES (R58). -/
abbrev SrcFits (s : State) (ls : Nat) : Prop := ls = 0 ∨ s.src.toNat + ls ≤ s.params.memBytes

/-- The destination range is empty or ends by MEM_BYTES (R58). -/
abbrev DstFits (s : State) (ld : Nat) : Prop := ld = 0 ∨ s.dst.toNat + ld ≤ s.params.memBytes

/-- Both ranges are non-empty and share a byte (R57). -/
abbrev SharesByte (s : State) (ls ld : Nat) : Prop :=
  0 < ls ∧ 0 < ld ∧ s.src.toNat < s.dst.toNat + ld ∧ s.dst.toNat < s.src.toNat + ls

/-- The range conditions under which a memory command performs (R57, R58). -/
abbrev RangesFit (s : State) (ls ld : Nat) : Prop := SrcFits s ls ∧ DstFits s ld ∧ ¬SharesByte s ls ld

/-- The shape conditions of TTILE and TLIN (R121). -/
abbrev TileShape (s : State) : Prop := s.width.toNat ≠ 0 ∧ s.width.toNat % 8 = 0 ∧ s.height.toNat % 8 = 0

/-- NCOL is a palette size (R31, R160). -/
abbrev NcolLegal (s : State) : Prop := 1 ≤ s.ncol.toNat ∧ s.ncol.toNat ≤ 256

/-- The shape conditions of QUANT (R160). -/
abbrev QuantShape (s : State) : Prop :=
  NcolLegal s ∧ s.ncol.toNat ≤ s.count.toNat ∧ s.count.toNat ≤ s.params.qmax

/-- The command ends with the error of this code: STATUS has DONE 0, ERR 1 and the code, and nothing else changes
(R203). -/
def Raises (i : Instr) (s : State) (code : Byte) : Prop :=
  exec i s = .next { s with status := ⟨false, true, code⟩ }

/-- RANGE (5) for the source, then RANGE for the destination, then OVERLAP (6), in this order (R57, R58, R205). -/
def RangeErrors (i : Instr) (s : State) (ls ld : Nat) : Prop :=
  (¬SrcFits s ls → Raises i s 5) ∧ (SrcFits s ls → ¬DstFits s ld → Raises i s 5) ∧
    (SrcFits s ls → DstFits s ld → SharesByte s ls ld → Raises i s 6)

/-! ## What a command may touch -/

/-- Every byte outside [a, a+n) reads the same in both memories. -/
def SameOutside (m m' : Memory) (a n : Nat) : Prop := ∀ x, (x < a ∨ a + n ≤ x) → m'.read x = m.read x

/-- The nine commands that have ranges (the table of R58). -/
abbrev TouchesMemory (i : Instr) : Prop := i ≠ .cencr ∧ i ≠ .cdecr

/-! ## The spec's formulas on natural numbers -/

/-- enc15 as R100 writes it, on natural numbers. -/
def enc15Nat (r g b : Nat) : Nat := ((b >>> 3) <<< 10) ||| ((g >>> 3) <<< 5) ||| (r >>> 3)

/-- expand5 as R101 writes it, on natural numbers. -/
def expand5Nat (v : Nat) : Nat := ((v <<< 3) ||| (v >>> 2)) &&& 0xFF

/-- The three 5-bit channels of a Color15: c[4:0], c[9:5] and c[14:10] (R10). -/
def redField (c : Nat) : Nat := c % 32

/-- c[9:5] (R10). -/
def greenField (c : Nat) : Nat := c / 32 % 32

/-- c[14:10] (R10). -/
def blueField (c : Nat) : Nat := c / 1024 % 32

/-- The 5-bit field of a Color15 that holds a channel (R10). -/
def keyField : Channel → Nat → Nat
  | .r, c => redField c
  | .g, c => greenField c
  | .b, c => blueField c

/-- The tiled position of linear position p = X + Y·W (R124). -/
def tiledPos (w p : Nat) : Nat :=
  64 * (p / w / 8 * (w / 8) + p % w / 8) + 8 * (p / w % 8) + p % w % 8

/-- `n` is the range of channel k over a colour sequence: its largest value less its smallest (R162). -/
def IsRange (k : Channel) (cs : List Rgb) (n : Nat) : Prop :=
  ∃ lo ∈ cs, ∃ hi ∈ cs, (∀ c ∈ cs, lo.channel k ≤ c.channel k ∧ c.channel k ≤ hi.channel k) ∧
    n = hi.channel k - lo.channel k

/-- `sorted` is the sequence `cs` under a permutation π of its positions, ascending by channel k, positions of equal
keys in their input order: the formal sentence of R164. -/
def StablySorted (k : Channel) (cs sorted : List Rgb) : Prop :=
  ∃ pi : List Nat, pi.Perm (List.range cs.length) ∧ sorted.map some = pi.map (fun p => cs[p]?) ∧
    pi.Pairwise fun p q => ∀ x y, cs[p]? = some x → cs[q]? = some y →
      x.channel k < y.channel k ∨ (x.channel k = y.channel k ∧ p < q)

/-! ## The invariant -/

/-- The data memory holds only bytes that exist, in its canonical form (R50). -/
abbrev Memory.Fits (p : Params) (m : Memory) : Prop := m.wf ∧ ∀ c ∈ m, c.1 < p.memBytes

/-- The word names no command (R87). -/
def IllegalWord (w : Word) : Prop := ∀ i, decode w ≠ .ok i

/-- What CMD and STATUS say together: nothing before the first command, and after one STATUS is ILLEGAL exactly when
CMD holds a word that names no command (R24, R87, R202, R240). -/
def CmdMatchesStatus (s : State) : Prop :=
  (s.status = Status.clear ∧ s.cmd = 0) ∨
    (s.status ≠ Status.clear ∧ (s.status = Status.error .illegal ↔ IllegalWord s.cmd))

/-- COUT holds 0 or a zero-extended Color15, or an opaque Color24 (R55, R104, R105, R240). -/
abbrev CoutForm (v : Word) : Prop := v.toNat < 2 ^ 15 ∨ v.extractLsb' 24 8 = 0xFF

/-- The invariant of the machine: STATUS holds one of the eight values of R25, the memory only bytes that exist, and
CMD and COUT what a command leaves in them. -/
structure State.Inv (s : State) : Prop where
  /-- The data memory (R50). -/
  mem : s.mem.Fits s.params
  /-- STATUS (R25). -/
  status : s.status.legal = true
  /-- CMD beside STATUS (R24, R87). -/
  cmd : CmdMatchesStatus s
  /-- COUT (R33, R104, R105). -/
  cout : CoutForm s.cout

end Sys2Proof.Machine
end

