-- ==== Sys2Proof/Certificates/Slice0/Obligations.lean ====
section
/-! DEFINITION. The statements for the provers. Each docstring names the rules of spec/ it formalises. `exec i s` is
the command's effect once CMD holds its word; `step` performs the host's next pending access.
The host's list of accesses, the reply and the counter of draws are the model's own fields (log entries 3, 4 and 5,
DESIGN CHOICE); what a statement says of them is no rule of the spec. -/

open Sys2Proof Sys2Proof.Machine

/-! ## Decoding -/

/-- R86: the words of the opcode map, written out, decode to their commands. -/
def Obligations.OpcodeMapWordsDecode : Prop :=
  decode 0x00000001 = .ok .cenc ∧ decode 0x00000011 = .ok .cdec ∧ decode 0x00000041 = .ok .cencr ∧
  decode 0x00000051 = .ok .cdecr ∧ decode 0x00000002 = .ok .ttile ∧ decode 0x00000012 = .ok .tlin ∧
  decode 0x00000003 = .ok .pack4 ∧ decode 0x00000013 = .ok .unpk4 ∧ decode 0x00000023 = .ok .pack8 ∧
  decode 0x00000033 = .ok .unpk8 ∧ decode 0x00000004 = .ok .quant

/-- R86: of all 2^32 words exactly the eleven of the opcode map are legal, each selecting its command; and decode and
encode agree in both directions. -/
def Obligations.DecodeInvertsEncode : Prop :=
  ∀ (w : Word) (i : Instr),
    (decode w = .ok i ↔ (w, i) ∈ [(0x00000001, .cenc), (0x00000011, .cdec), (0x00000041, .cencr),
      (0x00000051, .cdecr), (0x00000002, .ttile), (0x00000012, .tlin), (0x00000003, .pack4), (0x00000013, .unpk4),
      (0x00000023, .pack8), (0x00000033, .unpk8), (0x00000004, .quant)]) ∧
    (decode w = .ok i ↔ w = encode i)

/-- R81-R85: reserved bits, an OP without a family, and INV, D8 or REG bits a family does not have make a word
illegal. -/
def Obligations.ReservedFieldsAreIllegal : Prop :=
  ∀ w : Word,
    ((∃ k, 7 ≤ k ∧ k < 32 ∧ w.getLsbD k = true) → IllegalWord w) ∧
    (w.extractLsb' 0 4 = 0 ∨ 5 ≤ (w.extractLsb' 0 4).toNat → IllegalWord w) ∧
    (w.extractLsb' 0 4 = 4 → w.getLsbD 4 = true → IllegalWord w) ∧
    (w.extractLsb' 0 4 ≠ 3 → w.getLsbD 5 = true → IllegalWord w) ∧
    (w.extractLsb' 0 4 ≠ 1 → w.getLsbD 6 = true → IllegalWord w)

/-! ## Steps -/

/-- R24, R93: a host write of a command's word to CMD stores the word and then runs the command; the step around exec
is to take the access off the host's list and to clear the reply. The write may name its place by offset or by bus
address REG_BASE + 4 (R22). -/
def Obligations.StepRunsDecodedCommand : Prop :=
  ∀ (s : State) (w : Word) (i : Instr) (rest : List Access), decode w = .ok i →
    step { s with pending := .write (.slot 0x04) 4 w :: rest } =
      exec i { s with pending := rest, reply := .nothing, cmd := w } ∧
    step { s with pending := .write (.bus (s.params.regBase + 0x04)) 4 w :: rest } =
      exec i { s with pending := rest, reply := .nothing, cmd := w }

/-- R87: every word but the eleven is illegal: CMD holds it, STATUS reports ILLEGAL, and nothing else changes. -/
def Obligations.IllegalWordRaisesIllegal : Prop :=
  ∀ (s : State) (w : Word) (rest : List Access),
    w ∉ ([0x00000001, 0x00000011, 0x00000041, 0x00000051, 0x00000002, 0x00000012, 0x00000003, 0x00000013, 0x00000023,
      0x00000033, 0x00000004] : List Word) →
    step { s with pending := .write (.slot 0x04) 4 w :: rest } =
      .next { s with pending := rest, reply := .nothing, cmd := w, status := ⟨false, true, 1⟩ }

/-- R216: with no access pending the block holds its state. -/
def Obligations.IdleStepHoldsState : Prop := ∀ s : State, s.pending = [] → step s = .next s

/-! ## The colour converter -/

/-- R102: CENC, its errors, its result and its frame. -/
def Obligations.CencEncodesArray : Prop :=
  decode 0x00000001 = .ok .cenc ∧ ∀ s : State,
    RangeErrors .cenc s (4 * s.count.toNat) (2 * s.count.toNat) ∧
    (RangesFit s (4 * s.count.toNat) (2 * s.count.toNat) →
      ∃ m, exec .cenc s = .next { s with mem := m, status := ⟨true, false, 0⟩ } ∧
        (∀ i, i < s.count.toNat → m.readLE (s.dst.toNat + 2 * i) 2 =
          enc15Nat (s.mem.read (s.src.toNat + 4 * i)).toNat (s.mem.read (s.src.toNat + 4 * i + 1)).toNat
            (s.mem.read (s.src.toNat + 4 * i + 2)).toNat) ∧
        SameOutside s.mem m s.dst.toNat (2 * s.count.toNat))

/-- R103: CDEC, its errors, its result and its frame. -/
def Obligations.CdecDecodesArray : Prop :=
  decode 0x00000011 = .ok .cdec ∧ ∀ s : State,
    RangeErrors .cdec s (2 * s.count.toNat) (4 * s.count.toNat) ∧
    (RangesFit s (2 * s.count.toNat) (4 * s.count.toNat) →
      ∃ m, exec .cdec s = .next { s with mem := m, status := ⟨true, false, 0⟩ } ∧
        (∀ i c, i < s.count.toNat → c = s.mem.readLE (s.src.toNat + 2 * i) 2 →
          (m.read (s.dst.toNat + 4 * i)).toNat = expand5Nat (redField c) ∧
          (m.read (s.dst.toNat + 4 * i + 1)).toNat = expand5Nat (greenField c) ∧
          (m.read (s.dst.toNat + 4 * i + 2)).toNat = expand5Nat (blueField c) ∧
          m.read (s.dst.toNat + 4 * i + 3) = 0xFF) ∧
        SameOutside s.mem m s.dst.toNat (4 * s.count.toNat))

/-- R104: CENCR writes the encoding of CIN to COUT, from any state; no register, byte or flag but COUT and STATUS
changes. -/
def Obligations.CencrEncodesCin : Prop :=
  decode 0x00000041 = .ok .cencr ∧ ∀ s : State, exec .cencr s = .next { s with
    cout := BitVec.ofNat 32 (enc15Nat (s.cin.extractLsb' 0 8).toNat (s.cin.extractLsb' 8 8).toNat
      (s.cin.extractLsb' 16 8).toNat),
    status := ⟨true, false, 0⟩ }

/-- R105: CDECR writes the decoding of CIN[15:0] to COUT, from any state; no register, byte or flag but COUT and
STATUS changes. -/
def Obligations.CdecrDecodesCin : Prop :=
  decode 0x00000051 = .ok .cdecr ∧ ∀ (s : State) (c : Nat), c = (s.cin.extractLsb' 0 16).toNat →
    exec .cdecr s = .next { s with
      cout := BitVec.ofNat 32 (0xFF * 2 ^ 24 + expand5Nat (blueField c) * 2 ^ 16 +
        expand5Nat (greenField c) * 2 ^ 8 + expand5Nat (redField c)),
      status := ⟨true, false, 0⟩ }

/-- R106 law 1: encoding a decoded Color15 gives it back without bit 15. -/
def Obligations.EncodeAfterDecode : Prop :=
  ∀ c : Half, enc15 ⟨(dec24 c).r, (dec24 c).g, (dec24 c).b⟩ = c &&& 0x7FFF#16

/-- R106 law 2: what decoding an encoded colour does to each channel, its error bound, and exactly when it is
exact; among the exact values the multiples of 8 are 0, 8, 16 and 24. -/
def Obligations.DecodeAfterEncode : Prop :=
  ∀ (r g b : Byte) (d : Color24), d = dec24 (enc15 ⟨r, g, b⟩) →
    d.a = 0xFF ∧
    ∀ x y : Byte, (x, y) ∈ [(r, d.r), (g, d.g), (b, d.b)] →
      y = (x &&& 0xF8#8) ||| (x >>> 5) ∧
      ((x.toNat : Int) - y.toNat).natAbs = (((x &&& 7#8).toNat : Int) - (x >>> 5).toNat).natAbs ∧
      ((x.toNat : Int) - y.toNat).natAbs ≤ 7 ∧
      (y = x ↔ x &&& 7#8 = x >>> 5) ∧
      (y = x ↔ ∃ t m : Nat, t < 8 ∧ m < 4 ∧ x.toNat = t * 32 + m * 8 + t) ∧
      (y = x → x.toNat % 8 = 0 → x.toNat = 0 ∨ x.toNat = 8 ∨ x.toNat = 16 ∨ x.toNat = 24)

/-- R106 laws 3 and 4: expand5 keeps the end points and is strictly increasing; enc15 is monotone in each channel. -/
def Obligations.CodecIsMonotone : Prop :=
  expand5 0 = 0 ∧ expand5 31 = 255 ∧
  (∀ u v : BitVec 5, u.toNat < v.toNat → (expand5 u).toNat < (expand5 v).toNat) ∧
  ∀ r g b x : Byte,
    (r.toNat ≤ x.toNat → (enc15 ⟨r, g, b⟩).toNat ≤ (enc15 ⟨x, g, b⟩).toNat) ∧
    (g.toNat ≤ x.toNat → (enc15 ⟨r, g, b⟩).toNat ≤ (enc15 ⟨r, x, b⟩).toNat) ∧
    (b.toNat ≤ x.toNat → (enc15 ⟨r, g, b⟩).toNat ≤ (enc15 ⟨r, g, x⟩).toNat)

/-! ## The tile transposer -/

/-- R120: the pixel at column wx and row wy of the tile in column tx and row ty of the tile grid sits at tiled
position 64·(ty·tilesAcross + tx) + 8·wy + wx and at linear position X + Y·W. -/
def Obligations.TileCoordinates : Prop :=
  ∀ w tx ty wx wy : Nat, w % 8 = 0 → tx < w / 8 → wx < 8 → wy < 8 →
    linearPos w (64 * (ty * (w / 8) + tx) + 8 * wy + wx) = (tx * 8 + wx) + (ty * 8 + wy) * w

/-- R124 laws 1 and 2: L(W, ·) maps the positions below W·H to themselves, one to one, and its inverse is the one
the rule gives. -/
def Obligations.LinearPosIsBijection : Prop :=
  ∀ w h : Nat, 8 ≤ w → w % 8 = 0 → h % 8 = 0 → ∀ t, t < w * h →
    linearPos w t < w * h ∧ tiledPos w t < w * h ∧
    tiledPos w (linearPos w t) = t ∧ linearPos w (tiledPos w t) = t

/-- R121, R122: TTILE, its errors, its result and its frame. -/
def Obligations.TtileTransposes : Prop :=
  decode 0x00000002 = .ok .ttile ∧ ∀ (s : State) (n : Nat), n = s.width.toNat * s.height.toNat →
    (¬TileShape s → Raises .ttile s 2) ∧
    (TileShape s → RangeErrors .ttile s n n) ∧
    (TileShape s → RangesFit s n n →
      ∃ m, exec .ttile s = .next { s with mem := m, status := ⟨true, false, 0⟩ } ∧
        (∀ t, t < n → m.read (s.dst.toNat + t) = s.mem.read (s.src.toNat + linearPos s.width.toNat t)) ∧
        SameOutside s.mem m s.dst.toNat n)

/-- R121, R123: TLIN, its errors, its result and its frame. -/
def Obligations.TlinTransposes : Prop :=
  decode 0x00000012 = .ok .tlin ∧ ∀ (s : State) (n : Nat), n = s.width.toNat * s.height.toNat →
    (¬TileShape s → Raises .tlin s 2) ∧
    (TileShape s → RangeErrors .tlin s n n) ∧
    (TileShape s → RangesFit s n n →
      ∃ m, exec .tlin s = .next { s with mem := m, status := ⟨true, false, 0⟩ } ∧
        (∀ t, t < n → m.read (s.dst.toNat + linearPos s.width.toNat t) = s.mem.read (s.src.toNat + t)) ∧
        SameOutside s.mem m s.dst.toNat n)

/-- R124 law 3: TLIN on the output of TTILE, with the same WIDTH and HEIGHT, restores the source bytes; and TTILE on
the output of TLIN does. `out` is the second command's destination, which may be the first one's source. -/
def Obligations.TransposeRoundTrip : Prop :=
  ∀ (s : State) (out : Word) (n : Nat) (first second : Instr), n = s.width.toNat * s.height.toNat →
    (first = .ttile ∧ second = .tlin ∨ first = .tlin ∧ second = .ttile) →
    TileShape s → RangesFit s n n → RangesFit { s with src := s.dst, dst := out } n n →
    ∃ t u, exec first s = .next t ∧ exec second { t with src := s.dst, dst := out } = .next u ∧
      u.status.done = true ∧ ∀ j, j < n → u.mem.read (out.toNat + j) = s.mem.read (s.src.toNat + j)

/-! ## The index packer -/

/-- R140: PACK4, its errors, its result and its frame. -/
def Obligations.PackFourPacksPairs : Prop :=
  decode 0x00000003 = .ok .pack4 ∧ ∀ (s : State) (n : Nat), n = s.count.toNat →
    (n % 2 ≠ 0 → Raises .pack4 s 2) ∧
    (n % 2 = 0 → RangeErrors .pack4 s n (n / 2)) ∧
    (n % 2 = 0 → RangesFit s n (n / 2) →
      ∃ m, exec .pack4 s = .next { s with mem := m, status := ⟨true, false, 0⟩ } ∧
        (∀ i, i < n / 2 → (m.read (s.dst.toNat + i)).toNat =
          (s.mem.read (s.src.toNat + 2 * i)).toNat % 16 + (s.mem.read (s.src.toNat + 2 * i + 1)).toNat % 16 * 16) ∧
        SameOutside s.mem m s.dst.toNat (n / 2))

/-- R141: UNPK4, its errors, its result and its frame. -/
def Obligations.UnpackFourSplitsBytes : Prop :=
  decode 0x00000013 = .ok .unpk4 ∧ ∀ (s : State) (n : Nat), n = s.count.toNat →
    (n % 2 ≠ 0 → Raises .unpk4 s 2) ∧
    (n % 2 = 0 → RangeErrors .unpk4 s (n / 2) n) ∧
    (n % 2 = 0 → RangesFit s (n / 2) n →
      ∃ m, exec .unpk4 s = .next { s with mem := m, status := ⟨true, false, 0⟩ } ∧
        (∀ i, i < n / 2 →
          (m.read (s.dst.toNat + 2 * i)).toNat = (s.mem.read (s.src.toNat + i)).toNat % 16 ∧
          (m.read (s.dst.toNat + 2 * i + 1)).toNat = (s.mem.read (s.src.toNat + i)).toNat / 16) ∧
        SameOutside s.mem m s.dst.toNat n)

/-- R142, R143: PACK8 and UNPK8 copy bytes, any COUNT being legal; their errors, result and frame. -/
def Obligations.EightBitFormsCopy : Prop :=
  decode 0x00000023 = .ok .pack8 ∧ decode 0x00000033 = .ok .unpk8 ∧ ∀ (s : State) (i : Instr), (i = .pack8 ∨ i = .unpk8) →
    RangeErrors i s s.count.toNat s.count.toNat ∧
    (RangesFit s s.count.toNat s.count.toNat →
      ∃ m, exec i s = .next { s with mem := m, status := ⟨true, false, 0⟩ } ∧
        (∀ j, j < s.count.toNat → m.read (s.dst.toNat + j) = s.mem.read (s.src.toNat + j)) ∧
        SameOutside s.mem m s.dst.toNat s.count.toNat)

/-- R144 laws 1 and 4: UNPK4 on the output of PACK4 gives each index byte masked to its low nibble, so it restores
bytes below 16. -/
def Obligations.UnpackAfterPackMasks : Prop :=
  ∀ (s : State) (out : Word) (n : Nat), n = s.count.toNat → n % 2 = 0 →
    RangesFit s n (n / 2) → RangesFit { s with src := s.dst, dst := out } (n / 2) n →
    ∃ t u, exec .pack4 s = .next t ∧ exec .unpk4 { t with src := s.dst, dst := out } = .next u ∧
      u.status.done = true ∧
      ∀ j, j < n →
        u.mem.read (out.toNat + j) = s.mem.read (s.src.toNat + j) &&& 0xF#8 ∧
        ((s.mem.read (s.src.toNat + j)).toNat < 16 →
          u.mem.read (out.toNat + j) = s.mem.read (s.src.toNat + j))

/-- R144 laws 2 and 3: PACK4 on the output of UNPK4 restores every packed byte; UNPK8 on the output of PACK8
restores every byte. -/
def Obligations.PackRoundTrips : Prop :=
  ∀ (s : State) (out : Word) (n : Nat), n = s.count.toNat →
    (n % 2 = 0 → RangesFit s (n / 2) n → RangesFit { s with src := s.dst, dst := out } n (n / 2) →
      ∃ t u, exec .unpk4 s = .next t ∧ exec .pack4 { t with src := s.dst, dst := out } = .next u ∧
        u.status.done = true ∧
        ∀ j, j < n / 2 → u.mem.read (out.toNat + j) = s.mem.read (s.src.toNat + j)) ∧
    (RangesFit s n n → RangesFit { s with src := s.dst, dst := out } n n →
      ∃ t u, exec .pack8 s = .next t ∧ exec .unpk8 { t with src := s.dst, dst := out } = .next u ∧
        u.status.done = true ∧
        ∀ j, j < n → u.mem.read (out.toNat + j) = s.mem.read (s.src.toNat + j))

/-! ## The palette quantizer -/

/-- R162, R163: the key channel is the one with the largest range, ties in the order R, G, B. -/
def Obligations.KeyChannelHasLargestRange : Prop :=
  ∀ (cs : List Rgb) (rr rg rb : Nat), IsRange .r cs rr → IsRange .g cs rg → IsRange .b cs rb →
    keyChannel cs = if rg ≤ rr ∧ rb ≤ rr then .r else if rb ≤ rg then .g else .b

/-- R164: the sort gives the stable ascending order, and the rule's formal sentence admits no other. -/
def Obligations.SortIsStable : Prop :=
  ∀ (k : Channel) (cs sorted : List Rgb), StablySorted k cs sorted ↔ sorted = sortByKey k cs

/-- R160-R167: QUANT, its errors in order, its palette and its frame. -/
def Obligations.QuantReducesPalette : Prop :=
  decode 0x00000004 = .ok .quant ∧ ∀ (s : State) (m n : Nat), m = s.count.toNat → n = s.ncol.toNat →
    (¬NcolLegal s → Raises .quant s 2) ∧
    (NcolLegal s → m < n → Raises .quant s 3) ∧
    (NcolLegal s → n ≤ m → s.params.qmax < m → Raises .quant s 4) ∧
    (QuantShape s → RangeErrors .quant s (4 * m) (2 * n)) ∧
    (QuantShape s → RangesFit s (4 * m) (2 * n) →
      ∃ (mem : Memory) (cs sorted : List Rgb) (key : Channel) (rr rg rb : Nat),
        exec .quant s = .next { s with mem := mem, status := ⟨true, false, 0⟩ } ∧
        cs.length = m ∧
        (∀ i, i < m → cs[i]? = some ⟨s.mem.read (s.src.toNat + 4 * i), s.mem.read (s.src.toNat + 4 * i + 1),
          s.mem.read (s.src.toNat + 4 * i + 2)⟩) ∧
        IsRange .r cs rr ∧ IsRange .g cs rg ∧ IsRange .b cs rb ∧
        key = (if rg ≤ rr ∧ rb ≤ rr then .r else if rb ≤ rg then .g else .b) ∧
        StablySorted key cs sorted ∧
        (∀ j, j < n → ∃ c, sorted[j * (m / n) + m / n / 2]? = some c ∧
          mem.readLE (s.dst.toNat + 2 * j) 2 = enc15Nat c.r.toNat c.g.toNat c.b.toNat) ∧
        SameOutside s.mem mem s.dst.toNat (2 * n))

/-- R168 law 2: the N representatives stand at N different positions of the sorted sequence, all of which exist. -/
def Obligations.RepresentativesAreDistinct : Prop :=
  ∀ m n j k : Nat, 1 ≤ n → n ≤ m → j < k → k < n →
    repIndex (m / n) j < repIndex (m / n) k ∧ repIndex (m / n) k < m

/-- R168 law 3: the palette a successful QUANT leaves is non-decreasing in the 5-bit field of the key channel. -/
def Obligations.PaletteAscendsInKey : Prop :=
  ∀ (s t : State) (j k : Nat), exec .quant s = .next t → t.status.done = true → j < k → k < s.ncol.toNat →
    keyField (keyChannel (quantInput s.mem s.src.toNat s.count.toNat)) (t.mem.readLE (s.dst.toNat + 2 * j) 2) ≤
    keyField (keyChannel (quantInput s.mem s.src.toNat s.count.toNat)) (t.mem.readLE (s.dst.toNat + 2 * k) 2)

/-- R161: the alpha bytes of the input have no effect: with any memory that holds the same R, G and B bytes, QUANT
ends the same way and leaves the same palette. -/
def Obligations.QuantIgnoresAlpha : Prop :=
  ∀ (s : State) (m : Memory),
    (∀ i k, i < s.count.toNat → k < 3 → m.read (s.src.toNat + 4 * i + k) = s.mem.read (s.src.toNat + 4 * i + k)) →
    ∃ t u, exec .quant s = .next t ∧ exec .quant { s with mem := m } = .next u ∧ u.status = t.status ∧
      (t.status.done = true → ∀ j, j < 2 * s.ncol.toNat →
        u.mem.read (s.dst.toNat + j) = t.mem.read (s.dst.toNat + j))

/-! ## Every command -/

/-- R93, R36: every command, from every state, ends in a next state whose DONE and ERR are different. -/
def Obligations.EveryCommandEnds : Prop :=
  ∀ (i : Instr) (s : State), ∃ t, exec i s = .next t ∧ t.status.err = !t.status.done

/-- R50, R89, R33, R202: the frame of all eleven commands. Nothing but the destination range, STATUS and (for CENCR
and CDECR alone) COUT can change. -/
def Obligations.CommandFrame : Prop :=
  ∀ (i : Instr) (s t : State), exec i s = .next t →
    t = { s with mem := t.mem, status := t.status, cout := t.cout } ∧
    SameOutside s.mem t.mem s.dst.toNat (dstLen i s) ∧
    (TouchesMemory i → t.cout = s.cout) ∧ (¬TouchesMemory i → t.mem = s.mem)

/-- R203: an error changes nothing but STATUS. -/
def Obligations.ErrorsArePrecise : Prop :=
  ∀ (i : Instr) (s t : State), exec i s = .next t → t.status.err = true →
    t = { s with status := t.status } ∧ t.status.done = false

/-- R201, column "raised by": which commands can end with which code. -/
def Obligations.ErrorCodesByCommand : Prop :=
  ∀ (i : Instr) (s t : State), exec i s = .next t →
    t.status.errcode.toNat ≤ 6 ∧ t.status.errcode ≠ 1 ∧
    (t.status.errcode = 0 ↔ t.status.err = false) ∧
    (t.status.errcode = 2 → i = .ttile ∨ i = .tlin ∨ i = .pack4 ∨ i = .unpk4 ∨ i = .quant) ∧
    (t.status.errcode = 3 ∨ t.status.errcode = 4 → i = .quant) ∧
    (t.status.errcode = 5 ∨ t.status.errcode = 6 → TouchesMemory i)

/-- R205: of the checks that fail, the one with the lowest code is reported. -/
def Obligations.LowestCodeIsReported : Prop :=
  ∀ (i : Instr) (s : State) (c : Check), c ∈ commandChecks i s → c.fails = true →
    ∃ t c', exec i s = .next t ∧ c' ∈ commandChecks i s ∧ c'.fails = true ∧ t.status = ⟨false, true, c'.code.code⟩ ∧
      c'.code.code.toNat ≤ c.code.code.toNat

/-- R61: every command is idempotent: run again from the state it left, it leaves that state. The premise on the
memory is part of the invariant of StepKeepsInvariant. -/
def Obligations.CommandsAreIdempotent : Prop :=
  ∀ (i : Instr) (s t : State), s.mem.wf → exec i s = .next t → exec i t = .next t

/-- R89: a command reads no register outside its row, so a stale value there has no effect. -/
def Obligations.StaleRegistersHaveNoEffect : Prop :=
  ∀ (s t : State) (w h n c o k : Word),
    (∀ i, i = .cenc ∨ i = .cdec ∨ i = .pack4 ∨ i = .unpk4 ∨ i = .pack8 ∨ i = .unpk8 → exec i s = .next t →
      exec i { s with width := w, height := h, ncol := n, cin := c, cout := o, cmd := k } =
        .next { t with width := w, height := h, ncol := n, cin := c, cout := o, cmd := k }) ∧
    (∀ i, i = .ttile ∨ i = .tlin → exec i s = .next t →
      exec i { s with count := w, ncol := n, cin := c, cout := o, cmd := k } =
        .next { t with count := w, ncol := n, cin := c, cout := o, cmd := k }) ∧
    (exec .quant s = .next t →
      exec .quant { s with width := w, height := h, cin := c, cout := o, cmd := k } =
        .next { t with width := w, height := h, cin := c, cout := o, cmd := k }) ∧
    (∀ i, i = .cencr ∨ i = .cdecr → exec i s = .next t →
      exec i { s with src := w, dst := h, count := n, width := o, height := k, ncol := c, cmd := w } =
        .next { t with src := w, dst := h, count := n, width := o, height := k, ncol := c, cmd := w })

/-- R36, R207: no command depends on the outcome of an earlier one: STATUS before a command changes nothing. -/
def Obligations.EarlierOutcomeHasNoEffect : Prop :=
  ∀ (i : Instr) (s : State) (x : Status), exec i { s with status := x } = exec i s

/-- R50, R89: a command reads no byte outside its source range: with any memory that agrees on that range, it ends
the same way and leaves the same destination bytes. -/
def Obligations.CommandReadsOnlySource : Prop :=
  ∀ (i : Instr) (s : State) (m : Memory),
    (∀ x, s.src.toNat ≤ x → x < s.src.toNat + srcLen i s → m.read x = s.mem.read x) →
    ∃ t u, exec i s = .next t ∧ exec i { s with mem := m } = .next u ∧ u.status = t.status ∧ u.cout = t.cout ∧
      (t.status.done = true → ∀ x, s.dst.toNat ≤ x → x < s.dst.toNat + dstLen i s → u.mem.read x = t.mem.read x)

/-- R60, R244: what the commands do with operand registers left at 0. -/
def Obligations.ZeroOperands : Prop :=
  ∀ s : State,
    (s.count = 0 → ∀ i, i = .cenc ∨ i = .cdec ∨ i = .pack4 ∨ i = .unpk4 ∨ i = .pack8 ∨ i = .unpk8 →
      exec i s = .next { s with status := ⟨true, false, 0⟩ }) ∧
    (s.width = 0 → Raises .ttile s 2 ∧ Raises .tlin s 2) ∧
    (TileShape s → s.height = 0 → ∀ i, i = .ttile ∨ i = .tlin →
      exec i s = .next { s with status := ⟨true, false, 0⟩ }) ∧
    (s.ncol = 0 → Raises .quant s 2)

/-! ## The register window -/

/-- R22, R23, R34, R35.4: what a read of each slot of the window returns; a read changes no register and no byte. -/
def Obligations.WindowReads : Prop :=
  ∀ (s : State) (off : Nat) (v : Word) (rest : List Access),
    (off, v) ∈ [(0x00, 0x4E420007), (0x04, s.cmd), (0x08, s.status.toWord), (0x0C, s.src), (0x10, s.dst),
      (0x14, s.count), (0x18, s.width), (0x1C, s.height), (0x20, s.ncol), (0x24, s.cin), (0x28, s.cout),
      (0x2C, 0), (0x30, 0), (0x34, 0), (0x38, 0), (0x3C, 0)] →
    step { s with pending := .read (.slot off) 4 :: rest } = .next { s with pending := rest, reply := .word v }

/-- R25: the bits of the word a read of STATUS returns. -/
def Obligations.StatusWordBits : Prop :=
  ∀ t : Status,
    t.toWord.getLsbD 0 = t.done ∧ t.toWord.getLsbD 1 = t.err ∧ t.toWord.extractLsb' 2 6 = 0 ∧
    t.toWord.extractLsb' 8 8 = t.errcode ∧ t.toWord.extractLsb' 16 16 = 0

/-- R25: the values STATUS can hold in a state of the invariant. -/
def Obligations.StatusWordValues : Prop :=
  ∀ s : State, s.Inv →
    s.status.toWord ∈ ([0x00000000, 0x00000001, 0x00000102, 0x00000202, 0x00000302, 0x00000402, 0x00000502,
      0x00000602] : List Word)

/-- R35.3: a write of a read-write register other than CMD stores all 32 bits and changes nothing else. -/
def Obligations.WindowWritesStore : Prop :=
  ∀ (s t : State) (off : Nat) (v : Word) (rest : List Access),
    (off, t) ∈ [(0x0C, { s with src := v }), (0x10, { s with dst := v }), (0x14, { s with count := v }),
      (0x18, { s with width := v }), (0x1C, { s with height := v }), (0x20, { s with ncol := v }),
      (0x24, { s with cin := v })] →
    step { s with pending := .write (.slot off) 4 v :: rest } = .next { t with pending := rest, reply := .nothing }

/-- R35.2, R34: a write of ID, STATUS, COUT or a reserved slot changes no state of the block and starts nothing. -/
def Obligations.ReadOnlyWritesIgnored : Prop :=
  ∀ (s : State) (off : Nat) (v : Word) (rest : List Access),
    off ∈ [0x00, 0x08, 0x28, 0x2C, 0x30, 0x34, 0x38, 0x3C] →
    step { s with pending := .write (.slot off) 4 v :: rest } = .next { s with pending := rest, reply := .nothing }

/-- R35.5, R22, U4: an access inside the window of another width or alignment is refused, in both forms of its address;
one that starts below the window and ends inside it is refused (DEDUCED, log entry 8); one outside the window does not
reach the block (DEDUCED, log entry 9). An access of 0 bytes is one of another width where its address lies (DESIGN
CHOICE, log entry 23). -/
def Obligations.WindowAccessForms : Prop :=
  ∀ (s : State) (off a size : Nat) (v : Word) (rest : List Access),
    (off < 64 → (size ≠ 4 ∨ off % 4 ≠ 0) → ∀ dest, dest = .slot off ∨ dest = .bus (s.params.regBase + off) →
      step { s with pending := .write dest size v :: rest } = .refused (.windowAccess dest size) ∧
      step { s with pending := .read dest size :: rest } = .refused (.windowAccess dest size)) ∧
    (a < s.params.regBase → s.params.regBase < a + size →
      step { s with pending := .write (.bus a) size v :: rest } = .refused (.windowAccess (.bus a) size) ∧
      step { s with pending := .read (.bus a) size :: rest } = .refused (.windowAccess (.bus a) size)) ∧
    (64 ≤ off →
      step { s with pending := .write (.slot off) size v :: rest } =
        .next { s with pending := rest, reply := .nothing } ∧
      step { s with pending := .read (.slot off) size :: rest } =
        .next { s with pending := rest, reply := .nothing })

/-- R22, R91: an aligned 32-bit access at a bus address inside the window is the access at its offset from REG_BASE;
one of any width that lies outside it does not reach the block (DEDUCED, log entry 9). -/
def Obligations.BusAddressesReachWindow : Prop :=
  ∀ (s : State) (off a size : Nat) (v : Word) (rest : List Access),
    (off < 64 → off % 4 = 0 →
      step { s with pending := .write (.bus (s.params.regBase + off)) 4 v :: rest } =
        step { s with pending := .write (.slot off) 4 v :: rest } ∧
      step { s with pending := .read (.bus (s.params.regBase + off)) 4 :: rest } =
        step { s with pending := .read (.slot off) 4 :: rest }) ∧
    (a < s.params.regBase ∧ a + size ≤ s.params.regBase ∨ s.params.regBase + 64 ≤ a →
      step { s with pending := .write (.bus a) size v :: rest } =
        .next { s with pending := rest, reply := .nothing } ∧
      step { s with pending := .read (.bus a) size :: rest } = .next { s with pending := rest, reply := .nothing })

/-- R25, R36, R62, R207: a step changes STATUS or CMD only if the host's access is a write that lands on CMD, or a
reset. -/
def Obligations.OnlyCommandOrResetChangesStatus : Prop :=
  ∀ (s t : State), step s = .next t → (t.status ≠ s.status ∨ t.cmd ≠ s.cmd) →
    ∃ a rest, s.pending = a :: rest ∧
      ((∃ dest v, a = .write dest 4 v ∧ (dest = .slot 4 ∨ dest = .bus (s.params.regBase + 4))) ∨
        a = .reset ∨ ∃ w, a = .resetDuringCommand w)

/-! ## The data memory -/

/-- R52, R53: MemRead is the little-endian sum of the bytes; MemWrite sets byte a+k to bits 8k+7:8k of the value and
no other byte, so MemRead after it gives the value. -/
def Obligations.LittleEndianStores : Prop :=
  ∀ (m : Memory) (a n v : Nat), v < 2 ^ (8 * n) →
    m.readLE a n = ((List.range n).map fun k => (m.read (a + k)).toNat * 2 ^ (8 * k)).sum ∧
    (m.writeLE a n v).readLE a n = v ∧ SameOutside m (m.writeLE a n v) a n ∧
    ∀ k, k < n → ((m.writeLE a n v).read (a + k)).toNat = (v >>> (8 * k)) &&& 0xFF

/-- R38, R50, R91: the host's own data-memory accesses; one that reaches past MEM_BYTES stops by name (the model's
choice, log entry 7). -/
def Obligations.HostMemoryAccesses : Prop :=
  ∀ (s : State) (a n : Nat) (bytes : List Byte) (rest : List Access),
    (bytes = [] ∨ a + bytes.length ≤ s.params.memBytes →
      ∃ m, step { s with pending := .memWrite a bytes :: rest } =
          .next { s with pending := rest, reply := .nothing, mem := m } ∧
        (∀ k, k < bytes.length → some (m.read (a + k)) = bytes[k]?) ∧ SameOutside s.mem m a bytes.length) ∧
    (n = 0 ∨ a + n ≤ s.params.memBytes →
      step { s with pending := .memRead a n :: rest } =
        .next { s with pending := rest, reply := .bytes ((List.range n).map fun k => s.mem.read (a + k)) }) ∧
    (bytes ≠ [] → s.params.memBytes < a + bytes.length →
      step { s with pending := .memWrite a bytes :: rest } = .fault (.noSuchByte a bytes.length)) ∧
    (n ≠ 0 → s.params.memBytes < a + n →
      step { s with pending := .memRead a n :: rest } = .fault (.noSuchByte a n))

/-! ## Reset -/

/-- R240: what the state after reset holds, STATUS as the host reads it, and ID, which never changes. -/
def Obligations.ResetValues : Prop :=
  State.reset.cmd = 0 ∧ State.reset.src = 0 ∧ State.reset.dst = 0 ∧ State.reset.count = 0 ∧ State.reset.width = 0 ∧
  State.reset.height = 0 ∧ State.reset.ncol = 0 ∧ State.reset.cin = 0 ∧ State.reset.cout = 0 ∧
  State.reset.status = ⟨false, false, 0⟩ ∧ State.reset.status.toWord = 0 ∧
  ∀ s : State, s.readSlot 0x00 = 0x4E420007

/-- R241, R38: the launch memory is a parameter, and any contents of the bytes that exist can be it; State.reset takes
one of which nothing is known (log entries 1 and 2). -/
def Obligations.LaunchMemoryIsParameter : Prop :=
  (∀ (p : Params) (mem0 : Nat → Byte) (a : Nat), a < p.memBytes → (State.launch p mem0).mem.read a = mem0 a) ∧
  State.reset = State.launch Config.launch Config.mem0

/-- R240: a reset between accesses sets every register to its reset value, from any state, and ID reads the same
always. R241: the data memory keeps its contents. That the parameters, the host's list and the counter of draws stay is
the model's choice (log entry 22, DESIGN CHOICE), and so is the cleared reply (log entry 4). -/
def Obligations.ResetKeepsMemory : Prop :=
  ∀ (s : State) (rest : List Access),
    step { s with pending := .reset :: rest } =
      .next { s with
        pending := rest, reply := .nothing, cmd := 0, status := ⟨false, false, 0⟩, src := 0, dst := 0, count := 0,
        width := 0, height := 0, ncol := 0, cin := 0, cout := 0 } ∧
    s.readSlot 0x00 = 0x4E420007

/-- R243: a reset that interrupts a CMD write sets every register to its reset value and changes no byte outside the
destination range of the command, whether or not its checks would have passed; a register-form command has none. Nothing
is said of the bytes inside the range (free values, log entry 5). That an illegal word has no destination range is
DEDUCED (log entry 6); what else stays is log entry 22 (DESIGN CHOICE). -/
def Obligations.ResetDuringCommand : Prop :=
  ∀ (s : State) (w : Word) (rest : List Access),
    ∃ m, step { s with pending := .resetDuringCommand w :: rest } =
        .next { s with
          pending := rest, reply := .nothing, cmd := 0, status := ⟨false, false, 0⟩, src := 0, dst := 0, count := 0,
          width := 0, height := 0, ncol := 0, cin := 0, cout := 0, mem := m, draws := s.draws + 1 } ∧
      (∀ i, decode w = .ok i → SameOutside s.mem m s.dst.toNat (dstLen i s)) ∧ (IllegalWord w → m = s.mem)

/-! ## The whole machine -/

/-- The invariant holds after reset, and in the launch state of every part with every launch memory (R25, R50, R240,
R241). -/
def Obligations.ResetMeetsInvariant : Prop :=
  State.reset.Inv ∧ ∀ (p : Params) (mem0 : Nat → Byte), (State.launch p mem0).Inv

/-- Every step keeps the invariant: the data memory stays in canonical form with only bytes that exist (R50), STATUS
holds one of its eight values (R25), ILLEGAL stands in STATUS exactly while CMD holds an illegal word (R24, R87), and
COUT holds a Color15 or an opaque Color24 (R33, R104, R105). The canonical form is the
model's representation of the memory (log entry 2). -/
def Obligations.StepKeepsInvariant : Prop := ∀ s t : State, s.Inv → step s = .next t → t.Inv

/-- No step changes the parameters of the part, a field of State (log entry 1, DESIGN CHOICE; R5 makes them parameters
of the model), and each step takes the access it performs, if there is one, off the host's list (log entry 3, DESIGN
CHOICE; R65 gives the order). -/
def Obligations.StepKeepsParameters : Prop :=
  ∀ s t : State, step s = .next t → t.params = s.params ∧ t.pending = s.pending.tail

/-- The machine goes on exactly on the well-formed accesses. R35.5 backs the stop on a window access of another width or
alignment. The model's own are the stop on a host data-memory access past MEM_BYTES (log entry 7, DESIGN CHOICE; R50 says
which bytes exist), the stop at the window's lower edge and the going on outside it (log entries 8 and 9, DEDUCED), and
that an access of 0 bytes lies where its address does (log entry 23, DESIGN CHOICE). -/
def Obligations.OnlyIllFormedAccessesStop : Prop :=
  ∀ (s : State) (a : Access) (rest : List Access),
    a.wf s.params = true ↔ ∃ t, step { s with pending := a :: rest } = .next t

/-- R254: at the end of a run nothing is in flight, so the final state is one the machine stays in; and from any state,
the lines of a program that ends in a next state are the accesses its steps performed (R65; the host's list is log entry
3, DESIGN CHOICE). -/
def Obligations.RunsEndAtRest : Prop :=
  (∀ (p : Params) (mem0 : Nat → Byte) (ls : List Line) (t : State), runProgram p mem0 ls = .next t →
    t.pending = [] ∧ t.params = p ∧ step t = .next t) ∧
  ∀ (s t : State) (ls : List Line), Sys2Proof.core.run ls.length (s.withLines ls) = .next t →
    t.pending = s.pending ∧ t.params = s.params
end

