-- ==== Sys2Proof/Laws/Memory.lean ====
section
/-! SUPPORT. The laws of the data memory: a read after a store (spec/20_memory.md R52, R53), and that every operation
keeps the canonical form. -/

namespace Sys2Proof.Machine

theorem Memory.read_insert_same (m : Memory) (a : Nat) (v : Byte) : (m.insert a v).read a = v := by
  induction m with
  | nil => simp [Memory.insert, Memory.read]
  | cons c rest ih =>
    obtain ⟨k, u⟩ := c
    simp only [Memory.insert]
    split
    · simp [Memory.read]
    · split
      · simp [Memory.read]
      · next h => simp [Memory.read, Ne.symm h, ih]

theorem Memory.read_insert_other (m : Memory) {a b : Nat} (v : Byte) (h : b ≠ a) :
    (m.insert a v).read b = m.read b := by
  induction m with
  | nil => simp [Memory.insert, Memory.read, h.symm]
  | cons c rest ih =>
    obtain ⟨k, u⟩ := c
    simp only [Memory.insert]
    split
    · simp [Memory.read, h.symm]
    · split
      · next hk => subst hk; simp [Memory.read, h.symm]
      · simp [Memory.read, ih]

theorem Memory.read_erase_same (m : Memory) (a : Nat) : (m.erase a).read a = Memory.unlisted := by
  induction m with
  | nil => rfl
  | cons c rest ih =>
    obtain ⟨k, u⟩ := c
    simp only [Memory.erase, List.filter_cons] at ih ⊢
    split
    · next h =>
      have hk : k ≠ a := by simpa using h
      simp only [Memory.read, if_neg hk]
      exact ih
    · exact ih

theorem Memory.read_erase_other (m : Memory) {a b : Nat} (h : b ≠ a) : (m.erase a).read b = m.read b := by
  induction m with
  | nil => rfl
  | cons c rest ih =>
    obtain ⟨k, u⟩ := c
    simp only [Memory.erase, List.filter_cons] at ih ⊢
    split
    · simp only [Memory.read, ih]
    · next hk =>
      have : k = a := by simpa using hk
      subst this
      simp only [Memory.read, if_neg h.symm]
      exact ih

/-- A byte store, read back (R53). -/
@[simp] theorem Memory.read_write_same (m : Memory) (a : Nat) (v : Byte) : (m.write a v).read a = v := by
  unfold Memory.write
  split
  · next h => rw [Memory.read_erase_same, h]
  · exact m.read_insert_same a v

/-- A byte store leaves every other byte alone (R53). -/
theorem Memory.read_write_other (m : Memory) {a b : Nat} (v : Byte) (h : b ≠ a) : (m.write a v).read b = m.read b := by
  unfold Memory.write
  split
  · exact m.read_erase_other h
  · exact m.read_insert_other v h

/-- Stores leave every byte alone that is the address of none of them. -/
theorem Memory.read_storeAll_other (cells : List Host.Cell) (m : Memory) {b : Nat} (h : ∀ c ∈ cells, c.1 ≠ b) :
    (m.storeAll cells).read b = m.read b := by
  induction cells generalizing m with
  | nil => rfl
  | cons c rest ih =>
    obtain ⟨a, v⟩ := c
    simp only [Memory.storeAll]
    rw [ih _ fun c hc => h c (List.mem_cons_of_mem _ hc)]
    exact m.read_write_other v (h (a, v) List.mem_cons_self).symm

/-- Of stores to pairwise different addresses, each is read back. -/
theorem Memory.read_storeAll_mem (cells : List Host.Cell) (m : Memory) (hn : (cells.map Prod.fst).Nodup)
    {c : Host.Cell} (hc : c ∈ cells) : (m.storeAll cells).read c.1 = c.2 := by
  induction cells generalizing m with
  | nil => cases hc
  | cons d rest ih =>
    obtain ⟨a, v⟩ := d
    simp only [List.map_cons, List.nodup_cons] at hn
    simp only [Memory.storeAll]
    rcases List.mem_cons.1 hc with rfl | hc
    · rw [Memory.read_storeAll_other]
      · exact m.read_write_same a v
      · intro c hc he
        exact hn.1 (List.mem_map.2 ⟨c, hc, he⟩)
    · exact ih _ hn.2 hc

theorem Memory.storeAll_append (xs ys : List Host.Cell) (m : Memory) :
    m.storeAll (xs ++ ys) = (m.storeAll xs).storeAll ys := by
  induction xs generalizing m with
  | nil => rfl
  | cons c rest ih => obtain ⟨a, v⟩ := c; simp [Memory.storeAll, ih]

/-! ## The canonical form -/

theorem Memory.mem_insert {m : Memory} {a : Nat} {v : Byte} {c : Host.Cell} (h : c ∈ m.insert a v) :
    c = (a, v) ∨ c ∈ m := by
  induction m with
  | nil => exact .inl (by simpa [Memory.insert] using h)
  | cons d rest ih =>
    obtain ⟨k, u⟩ := d
    simp only [Memory.insert] at h
    split at h
    · simpa using h
    · split at h
      · rcases List.mem_cons.1 h with h | h
        · exact .inl h
        · exact .inr (List.mem_cons_of_mem _ h)
      · rcases List.mem_cons.1 h with h | h
        · exact .inr (h ▸ List.mem_cons_self)
        · exact (ih h).imp_right (List.mem_cons_of_mem _)

theorem Memory.mem_write {m : Memory} {a : Nat} {v : Byte} {c : Host.Cell} (h : c ∈ m.write a v) :
    c = (a, v) ∨ c ∈ m := by
  unfold Memory.write at h
  split at h
  · exact .inr (List.mem_of_mem_filter h)
  · exact Memory.mem_insert h

theorem Memory.rising_insert {m : Memory} (a : Nat) (v : Byte) (h : m.Pairwise fun x y => x.1 < y.1) :
    (m.insert a v).Pairwise fun x y => x.1 < y.1 := by
  induction m with
  | nil => simp [Memory.insert]
  | cons d rest ih =>
    obtain ⟨k, u⟩ := d
    obtain ⟨hk, hr⟩ := List.pairwise_cons.1 h
    simp only [Memory.insert]
    split
    · next hlt =>
      refine List.pairwise_cons.2 ⟨fun c hc => ?_, h⟩
      rcases List.mem_cons.1 hc with rfl | hc
      · exact hlt
      · exact Nat.lt_trans hlt (hk c hc)
    · split
      · next he => subst he; exact List.pairwise_cons.2 ⟨hk, hr⟩
      · next hge hne =>
        refine List.pairwise_cons.2 ⟨fun c hc => ?_, ih hr⟩
        rcases Memory.mem_insert hc with rfl | hc
        · show k < a; omega
        · exact hk c hc

/-- A byte store keeps the canonical form. -/
theorem Memory.wf_write {m : Memory} (a : Nat) (v : Byte) (h : m.wf) : (m.write a v).wf := by
  unfold Memory.write
  split
  · exact ⟨h.1.filter _, fun c hc => h.2 c (List.mem_of_mem_filter hc)⟩
  · next hv =>
    refine ⟨Memory.rising_insert a v h.1, fun c hc => ?_⟩
    rcases Memory.mem_insert hc with rfl | hc
    · exact hv
    · exact h.2 c hc

/-- Stores keep the canonical form. -/
theorem Memory.wf_storeAll {m : Memory} (cells : List Host.Cell) (h : m.wf) : (m.storeAll cells).wf := by
  induction cells generalizing m with
  | nil => exact h
  | cons c rest ih => obtain ⟨a, v⟩ := c; exact ih (Memory.wf_write a v h)

/-- A little-endian store keeps the canonical form. -/
theorem Memory.wf_writeLE {m : Memory} (a n v : Nat) (h : m.wf) : (m.writeLE a n v).wf := Memory.wf_storeAll _ h

/-- Stores list no address but their own. -/
theorem Memory.mem_storeAll {m : Memory} {cells : List Host.Cell} {c : Host.Cell} (h : c ∈ m.storeAll cells) :
    c ∈ cells ∨ c ∈ m := by
  induction cells generalizing m with
  | nil => exact .inr h
  | cons d rest ih =>
    obtain ⟨a, v⟩ := d
    rcases ih h with h | h
    · exact .inl (List.mem_cons_of_mem _ h)
    · rcases Memory.mem_write h with rfl | h
      · exact .inl List.mem_cons_self
      · exact .inr h

/-- An address that no entry has reads as an unlisted one. -/
theorem Memory.read_unlisted {m : Memory} {a : Nat} (h : ∀ c ∈ m, c.1 ≠ a) : m.read a = Memory.unlisted := by
  induction m with
  | nil => rfl
  | cons c rest ih =>
    obtain ⟨k, u⟩ := c
    have hk : k ≠ a := h (k, u) List.mem_cons_self
    simp [Memory.read, hk, ih fun c hc => h c (List.mem_cons_of_mem _ hc)]

/-- Canonical memories that read alike everywhere are the same data. -/
theorem Memory.ext_read {m m' : Memory} (h : m.wf) (h' : m'.wf) (he : ∀ a, m.read a = m'.read a) : m = m' := by
  induction m generalizing m' with
  | nil =>
    cases m' with
    | nil => rfl
    | cons c rest =>
      have := he c.1
      simp only [Memory.read] at this
      exact absurd this.symm (by simpa using h'.2 c List.mem_cons_self)
  | cons c rest ih =>
    obtain ⟨k, u⟩ := c
    cases m' with
    | nil =>
      have := he k
      simp only [Memory.read] at this
      exact absurd this (by simpa using h.2 (k, u) List.mem_cons_self)
    | cons c' rest' =>
      obtain ⟨k', u'⟩ := c'
      obtain ⟨hk, hr⟩ := List.pairwise_cons.1 h.1
      obtain ⟨hk', hr'⟩ := List.pairwise_cons.1 h'.1
      have hu : u ≠ Memory.unlisted := h.2 (k, u) List.mem_cons_self
      have hu' : u' ≠ Memory.unlisted := h'.2 (k', u') List.mem_cons_self
      have hkk : k = k' := by
        rcases Nat.lt_trichotomy k k' with hlt | heq | hgt
        · have hread := he k
          rw [Memory.read_unlisted (m := (k', u') :: rest')] at hread
          · simp [Memory.read] at hread; exact absurd hread hu
          · intro c hc
            rcases List.mem_cons.1 hc with rfl | hc
            · exact Nat.ne_of_gt hlt
            · exact Nat.ne_of_gt (Nat.lt_trans hlt (hk' c hc))
        · exact heq
        · have hread := he k'
          rw [Memory.read_unlisted (m := (k, u) :: rest)] at hread
          · simp [Memory.read] at hread; exact absurd hread.symm hu'
          · intro c hc
            rcases List.mem_cons.1 hc with rfl | hc
            · exact Nat.ne_of_gt hgt
            · exact Nat.ne_of_gt (Nat.lt_trans hgt (hk c hc))
      subst hkk
      have huu : u = u' := by simpa [Memory.read] using he k
      subst huu
      congr 1
      refine ih ⟨hr, fun c hc => h.2 c (List.mem_cons_of_mem _ hc)⟩
        ⟨hr', fun c hc => h'.2 c (List.mem_cons_of_mem _ hc)⟩ fun a => ?_
      by_cases ha : k = a
      · subst ha
        rw [Memory.read_unlisted fun c hc => Nat.ne_of_gt (hk c hc),
          Memory.read_unlisted fun c hc => Nat.ne_of_gt (hk' c hc)]
      · simpa [Memory.read, ha] using he a

/-! ## Little-endian values and stores -/

theorem Memory.readLE_succ (m : Memory) (a n : Nat) :
    m.readLE a (n + 1) = (m.read a).toNat + 256 * m.readLE (a + 1) n := rfl

theorem Memory.readLE_two (m : Memory) (a : Nat) :
    m.readLE a 2 = (m.read a).toNat + 256 * (m.read (a + 1)).toNat := by
  simp [Memory.readLE]

/-- The low and the high byte of a 16-bit value make it up again (R52). -/
theorem low_high_bytes {v : Nat} (h : v < 65536) :
    (BitVec.ofNat 8 v).toNat + 256 * (BitVec.ofNat 8 (v >>> 8)).toNat = v := by
  simp [Nat.shiftRight_eq_div_pow]; omega

theorem leCells_addrs (a n v : Nat) : (leCells a n v).map Prod.fst = (List.range n).map (a + ·) := by
  simp [leCells, Function.comp_def]

theorem bytesAt_eq (a : Nat) (bs : List Byte) :
    bytesAt a bs = (List.range bs.length).map fun k => (a + k, bs.getD k 0) := by
  induction bs generalizing a with
  | nil => rfl
  | cons b rest ih =>
    rw [bytesAt, ih, List.length_cons, List.range_succ_eq_map]
    simp [Function.comp_def, Nat.add_assoc, Nat.add_comm 1]

theorem bytesAt_addrs (a : Nat) (bs : List Byte) :
    (bytesAt a bs).map Prod.fst = (List.range bs.length).map (a + ·) := by
  simp [bytesAt_eq, Function.comp_def]

/-- A byte that is stored to reads the same whatever the memory was before. -/
theorem Memory.read_storeAll_agree (cells : List Host.Cell) (m m' : Memory) {x : Nat}
    (hx : x ∈ cells.map Prod.fst) : (m.storeAll cells).read x = (m'.storeAll cells).read x := by
  induction cells generalizing m m' with
  | nil => simp at hx
  | cons c rest ih =>
    obtain ⟨a, v⟩ := c
    simp only [Memory.storeAll]
    by_cases h : x ∈ rest.map Prod.fst
    · exact ih _ _ h
    · have hxa : x = a := by simpa [h] using hx
      subst hxa
      have hh : ∀ c ∈ rest, c.1 ≠ x := fun c hc he => h (List.mem_map.2 ⟨c, hc, he⟩)
      rw [Memory.read_storeAll_other _ _ hh, Memory.read_storeAll_other _ _ hh]
      simp

/-! ## The memory of given contents -/

/-- In a canonical memory each entry is what its address reads as. -/
theorem Memory.read_of_mem {m : Memory} (h : m.wf) {c : Host.Cell} (hc : c ∈ m) : m.read c.1 = c.2 := by
  induction m with
  | nil => cases hc
  | cons d rest ih =>
    obtain ⟨hlt, hr⟩ := List.pairwise_cons.1 h.1
    rcases List.mem_cons.1 hc with rfl | hc
    · simp [Memory.read]
    · have hne : d.1 ≠ c.1 := Nat.ne_of_lt (hlt c hc)
      simpa [Memory.read, hne] using ih ⟨hr, fun c hc => h.2 c (List.mem_cons_of_mem _ hc)⟩ hc

theorem Memory.mem_ofBytes {n : Nat} {f : Nat → Byte} {c : Host.Cell} :
    c ∈ Memory.ofBytes n f ↔ c.1 < n ∧ f c.1 ≠ Memory.unlisted ∧ c.2 = f c.1 := by
  obtain ⟨a, v⟩ := c
  simp only [Memory.ofBytes, List.mem_filterMap, List.mem_range]
  constructor
  · rintro ⟨b, hb, h⟩
    split_ifs at h with hu
    obtain ⟨rfl, rfl⟩ : b = a ∧ f b = v := by simpa using h
    exact ⟨hb, hu, rfl⟩
  · rintro ⟨ha, hu, hv⟩
    exact ⟨a, ha, by rw [if_neg hu, hv]⟩

theorem Memory.wf_ofBytes (n : Nat) (f : Nat → Byte) : (Memory.ofBytes n f).wf := by
  refine ⟨?_, fun c hc => ?_⟩
  · refine List.Pairwise.filterMap _ (fun a b hab x hx y hy => ?_) List.pairwise_lt_range
    split_ifs at hx hy
    simp only [Option.some.injEq] at hx hy
    subst hx hy
    exact hab
  · obtain ⟨-, hu, hv⟩ := Memory.mem_ofBytes.1 hc
    rwa [hv]

/-- The launch memory is in canonical form (R241). -/
theorem Memory.reset_wf : State.reset.mem.wf := Memory.wf_ofBytes _ _

/-- The memory of given contents reads as they say (R241). -/
theorem Memory.read_ofBytes {n a : Nat} (f : Nat → Byte) (h : a < n) : (Memory.ofBytes n f).read a = f a := by
  by_cases hu : f a = Memory.unlisted
  · rw [hu]
    refine Memory.read_unlisted fun c hc he => ?_
    exact (Memory.mem_ofBytes.1 hc).2.1 (he ▸ hu)
  · exact Memory.read_of_mem (Memory.wf_ofBytes n f) (c := (a, f a)) (Memory.mem_ofBytes.2 ⟨h, hu, rfl⟩)

end Sys2Proof.Machine
end

