-- ==== Sys2Proof/Laws/State.lean ====
section
/-! SUPPORT. What each update of the state does to each field, one lemma per field per update. -/

namespace Sys2Proof.Machine

/-! ## Storing cells -/

@[simp] theorem State.store_params (s : State) (cells : List Host.Cell) : (s.store cells).params = s.params := rfl

@[simp] theorem State.store_cmd (s : State) (cells : List Host.Cell) : (s.store cells).cmd = s.cmd := rfl

@[simp] theorem State.store_status (s : State) (cells : List Host.Cell) : (s.store cells).status = s.status := rfl

@[simp] theorem State.store_src (s : State) (cells : List Host.Cell) : (s.store cells).src = s.src := rfl

@[simp] theorem State.store_dst (s : State) (cells : List Host.Cell) : (s.store cells).dst = s.dst := rfl

@[simp] theorem State.store_count (s : State) (cells : List Host.Cell) : (s.store cells).count = s.count := rfl

@[simp] theorem State.store_width (s : State) (cells : List Host.Cell) : (s.store cells).width = s.width := rfl

@[simp] theorem State.store_height (s : State) (cells : List Host.Cell) : (s.store cells).height = s.height := rfl

@[simp] theorem State.store_ncol (s : State) (cells : List Host.Cell) : (s.store cells).ncol = s.ncol := rfl

@[simp] theorem State.store_cin (s : State) (cells : List Host.Cell) : (s.store cells).cin = s.cin := rfl

@[simp] theorem State.store_cout (s : State) (cells : List Host.Cell) : (s.store cells).cout = s.cout := rfl

@[simp] theorem State.store_mem (s : State) (cells : List Host.Cell) : (s.store cells).mem = s.mem.storeAll cells := rfl

@[simp] theorem State.store_pending (s : State) (cells : List Host.Cell) : (s.store cells).pending = s.pending := rfl

@[simp] theorem State.store_reply (s : State) (cells : List Host.Cell) : (s.store cells).reply = s.reply := rfl

@[simp] theorem State.store_draws (s : State) (cells : List Host.Cell) : (s.store cells).draws = s.draws := rfl

/-! ## Raising an error (spec/60_exceptions.md R203) -/

@[simp] theorem State.raiseError_params (s : State) (c : ErrCode) : (s.raiseError c).params = s.params := rfl

@[simp] theorem State.raiseError_cmd (s : State) (c : ErrCode) : (s.raiseError c).cmd = s.cmd := rfl

@[simp] theorem State.raiseError_status (s : State) (c : ErrCode) : (s.raiseError c).status = Status.error c := rfl

@[simp] theorem State.raiseError_src (s : State) (c : ErrCode) : (s.raiseError c).src = s.src := rfl

@[simp] theorem State.raiseError_dst (s : State) (c : ErrCode) : (s.raiseError c).dst = s.dst := rfl

@[simp] theorem State.raiseError_count (s : State) (c : ErrCode) : (s.raiseError c).count = s.count := rfl

@[simp] theorem State.raiseError_width (s : State) (c : ErrCode) : (s.raiseError c).width = s.width := rfl

@[simp] theorem State.raiseError_height (s : State) (c : ErrCode) : (s.raiseError c).height = s.height := rfl

@[simp] theorem State.raiseError_ncol (s : State) (c : ErrCode) : (s.raiseError c).ncol = s.ncol := rfl

@[simp] theorem State.raiseError_cin (s : State) (c : ErrCode) : (s.raiseError c).cin = s.cin := rfl

@[simp] theorem State.raiseError_cout (s : State) (c : ErrCode) : (s.raiseError c).cout = s.cout := rfl

@[simp] theorem State.raiseError_mem (s : State) (c : ErrCode) : (s.raiseError c).mem = s.mem := rfl

@[simp] theorem State.raiseError_pending (s : State) (c : ErrCode) : (s.raiseError c).pending = s.pending := rfl

@[simp] theorem State.raiseError_reply (s : State) (c : ErrCode) : (s.raiseError c).reply = s.reply := rfl

@[simp] theorem State.raiseError_draws (s : State) (c : ErrCode) : (s.raiseError c).draws = s.draws := rfl

/-! ## Completing without an error (R204) -/

@[simp] theorem State.complete_params (s : State) : (s.complete).params = s.params := rfl

@[simp] theorem State.complete_cmd (s : State) : (s.complete).cmd = s.cmd := rfl

@[simp] theorem State.complete_status (s : State) : (s.complete).status = Status.success := rfl

@[simp] theorem State.complete_src (s : State) : (s.complete).src = s.src := rfl

@[simp] theorem State.complete_dst (s : State) : (s.complete).dst = s.dst := rfl

@[simp] theorem State.complete_count (s : State) : (s.complete).count = s.count := rfl

@[simp] theorem State.complete_width (s : State) : (s.complete).width = s.width := rfl

@[simp] theorem State.complete_height (s : State) : (s.complete).height = s.height := rfl

@[simp] theorem State.complete_ncol (s : State) : (s.complete).ncol = s.ncol := rfl

@[simp] theorem State.complete_cin (s : State) : (s.complete).cin = s.cin := rfl

@[simp] theorem State.complete_cout (s : State) : (s.complete).cout = s.cout := rfl

@[simp] theorem State.complete_mem (s : State) : (s.complete).mem = s.mem := rfl

@[simp] theorem State.complete_pending (s : State) : (s.complete).pending = s.pending := rfl

@[simp] theorem State.complete_reply (s : State) : (s.complete).reply = s.reply := rfl

@[simp] theorem State.complete_draws (s : State) : (s.complete).draws = s.draws := rfl

/-! ## Reset of the registers (70_reset_and_hazards.md R240) -/

@[simp] theorem State.resetRegisters_params (s : State) : (s.resetRegisters).params = s.params := rfl

@[simp] theorem State.resetRegisters_cmd (s : State) : (s.resetRegisters).cmd = 0 := rfl

@[simp] theorem State.resetRegisters_status (s : State) : (s.resetRegisters).status = Status.clear := rfl

@[simp] theorem State.resetRegisters_src (s : State) : (s.resetRegisters).src = 0 := rfl

@[simp] theorem State.resetRegisters_dst (s : State) : (s.resetRegisters).dst = 0 := rfl

@[simp] theorem State.resetRegisters_count (s : State) : (s.resetRegisters).count = 0 := rfl

@[simp] theorem State.resetRegisters_width (s : State) : (s.resetRegisters).width = 0 := rfl

@[simp] theorem State.resetRegisters_height (s : State) : (s.resetRegisters).height = 0 := rfl

@[simp] theorem State.resetRegisters_ncol (s : State) : (s.resetRegisters).ncol = 0 := rfl

@[simp] theorem State.resetRegisters_cin (s : State) : (s.resetRegisters).cin = 0 := rfl

@[simp] theorem State.resetRegisters_cout (s : State) : (s.resetRegisters).cout = 0 := rfl

@[simp] theorem State.resetRegisters_mem (s : State) : (s.resetRegisters).mem = s.mem := rfl

@[simp] theorem State.resetRegisters_pending (s : State) : (s.resetRegisters).pending = s.pending := rfl

@[simp] theorem State.resetRegisters_reply (s : State) : (s.resetRegisters).reply = s.reply := rfl

@[simp] theorem State.resetRegisters_draws (s : State) : (s.resetRegisters).draws = s.draws := rfl

/-! ## Placing a CMD write before the host's accesses -/

@[simp] theorem State.withCommand_params (s : State) (w : Word) : (s.withCommand w).params = s.params := rfl

@[simp] theorem State.withCommand_cmd (s : State) (w : Word) : (s.withCommand w).cmd = s.cmd := rfl

@[simp] theorem State.withCommand_status (s : State) (w : Word) : (s.withCommand w).status = s.status := rfl

@[simp] theorem State.withCommand_src (s : State) (w : Word) : (s.withCommand w).src = s.src := rfl

@[simp] theorem State.withCommand_dst (s : State) (w : Word) : (s.withCommand w).dst = s.dst := rfl

@[simp] theorem State.withCommand_count (s : State) (w : Word) : (s.withCommand w).count = s.count := rfl

@[simp] theorem State.withCommand_width (s : State) (w : Word) : (s.withCommand w).width = s.width := rfl

@[simp] theorem State.withCommand_height (s : State) (w : Word) : (s.withCommand w).height = s.height := rfl

@[simp] theorem State.withCommand_ncol (s : State) (w : Word) : (s.withCommand w).ncol = s.ncol := rfl

@[simp] theorem State.withCommand_cin (s : State) (w : Word) : (s.withCommand w).cin = s.cin := rfl

@[simp] theorem State.withCommand_cout (s : State) (w : Word) : (s.withCommand w).cout = s.cout := rfl

@[simp] theorem State.withCommand_mem (s : State) (w : Word) : (s.withCommand w).mem = s.mem := rfl

@[simp] theorem State.withCommand_pending (s : State) (w : Word) : (s.withCommand w).pending = .write (.slot Reg.cmd.offset) 4 w :: s.pending := rfl

@[simp] theorem State.withCommand_reply (s : State) (w : Word) : (s.withCommand w).reply = s.reply := rfl

@[simp] theorem State.withCommand_draws (s : State) (w : Word) : (s.withCommand w).draws = s.draws := rfl

end Sys2Proof.Machine
end

