-- ==== Sys2Proof/Laws/Command.lean ====
section
/-! SUPPORT. What a command can do: the check phase against the spec's conditions (spec/20_memory.md R57, R58), and
the two ways exec ends (60_exceptions.md R203, R204). -/

namespace Sys2Proof.Machine

/-! ## STATUS -/

theorem Status.legal_error (c : ErrCode) : (Status.error c).legal = true := by cases c <;> decide

theorem Status.legal_cases {t : Status} (h : t.legal = true) :
    t = Status.clear ∨ t = Status.success ∨ ∃ c, t = Status.error c := by
  simp only [Status.legal, Bool.or_eq_true, beq_iff_eq, List.any_eq_true] at h
  rcases h with (h | h) | ⟨c, -, h⟩
  · exact .inl h
  · exact .inr (.inl h)
  · exact .inr (.inr ⟨c, h⟩)

theorem Status.error_ne_clear (c : ErrCode) : Status.error c ≠ Status.clear := by cases c <;> decide

theorem Status.error_ne_success (c : ErrCode) : Status.error c ≠ Status.success := by cases c <;> decide

theorem Status.error_inj {c d : ErrCode} (h : Status.error c = Status.error d) : c = d := by
  cases c <;> cases d <;> first | rfl | exact absurd h (by decide)

/-! ## The check phase -/

theorem firstError_append (xs ys : List Check) :
    firstError (xs ++ ys) = (firstError xs).orElse fun _ => firstError ys := by
  induction xs with
  | nil => rfl
  | cons c rest ih =>
    simp only [List.cons_append, firstError]
    split <;> simp [ih]

theorem firstError_eq_none {cs : List Check} : firstError cs = none ↔ ∀ c ∈ cs, c.fails = false := by
  induction cs with
  | nil => simp [firstError]
  | cons c rest ih =>
    simp only [firstError, List.forall_mem_cons]
    split <;> simp_all

/-- The error a check phase reports is that of one of its failing checks. -/
theorem firstError_some {cs : List Check} {e : ErrCode} (h : firstError cs = some e) :
    ∃ c ∈ cs, c.fails = true ∧ c.code = e := by
  induction cs with
  | nil => cases h
  | cons c rest ih =>
    simp only [firstError] at h
    split at h
    · next hf => exact ⟨c, List.mem_cons_self, hf, by simpa using h⟩
    · obtain ⟨d, hd, hf⟩ := ih h
      exact ⟨d, List.mem_cons_of_mem _ hd, hf⟩

@[simp] theorem inRange_iff (p : Params) (a len : Nat) : inRange p a len = true ↔ len = 0 ∨ a + len ≤ p.memBytes := by
  simp [inRange]

@[simp] theorem overlaps_iff (a la b lb : Nat) :
    overlaps a la b lb = true ↔ 0 < la ∧ 0 < lb ∧ a < b + lb ∧ b < a + la := by
  simp [overlaps, and_assoc]

/-- The range checks as the spec's if-chain (R205). -/
theorem firstError_rangeChecks (s : State) (ls ld : Nat) :
    firstError (rangeChecks s.params s.src.toNat ls s.dst.toNat ld) =
      if ¬SrcFits s ls then some .range else if ¬DstFits s ld then some .range
      else if SharesByte s ls ld then some .overlap else none := by
  simp only [rangeChecks, firstError, Bool.not_eq_true', ← Bool.not_eq_true, inRange_iff, overlaps_iff, SrcFits, DstFits,
    SharesByte]

/-- No range check fails exactly when the ranges fit. -/
theorem rangeChecks_pass (s : State) (ls ld : Nat) :
    firstError (rangeChecks s.params s.src.toNat ls s.dst.toNat ld) = none ↔ RangesFit s ls ld := by
  rw [firstError_rangeChecks]
  unfold RangesFit
  split_ifs <;> simp_all

/-- A check phase is its shape checks and then its range checks. -/
theorem firstError_commandChecks (i : Instr) (s : State) :
    firstError (commandChecks i s) = (firstError (shapeChecks i s)).orElse fun _ =>
      firstError (rangeChecks s.params s.src.toNat (srcLen i s) s.dst.toNat (dstLen i s)) :=
  firstError_append _ _

/-- No check of a command fails exactly when no shape check does and the ranges fit. -/
theorem commandChecks_pass (i : Instr) (s : State) :
    firstError (commandChecks i s) = none ↔
      firstError (shapeChecks i s) = none ∧ RangesFit s (srcLen i s) (dstLen i s) := by
  rw [firstError_commandChecks, ← rangeChecks_pass]
  cases firstError (shapeChecks i s) <;> simp

theorem tileShapeChecks_error (s : State) :
    firstError (tileShapeChecks s) = if TileShape s then none else some .param := by
  simp only [tileShapeChecks, firstError, TileShape, decide_eq_true_eq]
  split_ifs <;> simp_all

theorem evenCountChecks_error (s : State) :
    firstError (evenCountChecks s) = if s.count.toNat % 2 = 0 then none else some .param := by
  simp only [evenCountChecks, firstError, decide_eq_true_eq]
  split_ifs <;> simp_all

theorem quantShapeChecks_error (s : State) :
    firstError (quantShapeChecks s) =
      if ¬NcolLegal s then some .param else if s.count.toNat < s.ncol.toNat then some .qcount
      else if s.params.qmax < s.count.toNat then some .capacity else none := by
  simp only [quantShapeChecks, firstError, NcolLegal, decide_eq_true_eq]
  split_ifs <;> first | rfl | omega

/-! ## The perform phase -/

/-- The stores of each command's perform phase; a register-form command has none. -/
def commandCells (i : Instr) (s : State) : List Host.Cell :=
  match i with
  | .cenc => cencCells s.mem s.src.toNat s.dst.toNat s.count.toNat
  | .cdec => cdecCells s.mem s.src.toNat s.dst.toNat s.count.toNat
  | .cencr => []
  | .cdecr => []
  | .ttile => ttileCells s.mem s.src.toNat s.dst.toNat s.width.toNat (s.width.toNat * s.height.toNat)
  | .tlin => tlinCells s.mem s.src.toNat s.dst.toNat s.width.toNat (s.width.toNat * s.height.toNat)
  | .pack4 => pack4Cells s.mem s.src.toNat s.dst.toNat s.count.toNat
  | .unpk4 => unpk4Cells s.mem s.src.toNat s.dst.toNat s.count.toNat
  | .pack8 => pack8Cells s.mem s.src.toNat s.dst.toNat s.count.toNat
  | .unpk8 => unpk8Cells s.mem s.src.toNat s.dst.toNat s.count.toNat
  | .quant => quantCells s.mem s.src.toNat s.dst.toNat s.count.toNat s.ncol.toNat

/-- What each command leaves in COUT. -/
def commandCout (i : Instr) (s : State) : Word :=
  match i with
  | .cencr => (enc15 (rgbOfWord s.cin)).setWidth 32
  | .cdecr => (dec24 (s.cin.extractLsb' 0 16)).toWord
  | _ => s.cout

/-- The state a command without an error leaves: its stores, its COUT, and the success. -/
def afterCommand (i : Instr) (s : State) : State :=
  { s with mem := s.mem.storeAll (commandCells i s), cout := commandCout i s, status := Status.success }

/-- exec once for all commands: the first failing check's error, or the perform phase. -/
theorem exec_eq (i : Instr) (s : State) :
    exec i s = match firstError (commandChecks i s) with
      | some c => .next (s.raiseError c)
      | none => .next (afterCommand i s) := by
  cases i <;> rfl

/-- What a command can do: raise the error of its first failing check, or perform. -/
theorem exec_cases {i : Instr} {s t : State} (h : exec i s = .next t) :
    (∃ c, firstError (commandChecks i s) = some c ∧ t = s.raiseError c) ∨
      (firstError (commandChecks i s) = none ∧ t = afterCommand i s) := by
  rw [exec_eq] at h
  cases hc : firstError (commandChecks i s) with
  | some c => rw [hc] at h; exact .inl ⟨c, rfl, by simpa using h.symm⟩
  | none => rw [hc] at h; exact .inr ⟨rfl, by simpa using h.symm⟩

theorem exec_of_error {i : Instr} {s : State} {c : ErrCode} (h : firstError (commandChecks i s) = some c) :
    exec i s = .next (s.raiseError c) := by
  rw [exec_eq, h]

theorem exec_of_pass {i : Instr} {s : State} (h : firstError (commandChecks i s) = none) :
    exec i s = .next (afterCommand i s) := by
  rw [exec_eq, h]

/-! ## What no command does -/

/-- A command leaves everything but the memory, COUT and STATUS alone. -/
theorem exec_keeps {i : Instr} {s t : State} (h : exec i s = .next t) :
    t = { s with mem := t.mem, status := t.status, cout := t.cout } := by
  rcases exec_cases h with ⟨c, -, rfl⟩ | ⟨-, rfl⟩ <;> rfl

/-- A command that ends with DONE passed its checks and performed (R204). -/
theorem exec_done {i : Instr} {s t : State} (h : exec i s = .next t) (hd : t.status.done = true) :
    firstError (commandChecks i s) = none ∧ t = afterCommand i s := by
  rcases exec_cases h with ⟨c, -, rfl⟩ | h
  · simp [State.raiseError, Status.error] at hd
  · exact h

/-- No check reads the memory (R9: the check phase looks at the operands). -/
theorem commandChecks_mem (i : Instr) (s : State) (m : Memory) :
    commandChecks i { s with mem := m } = commandChecks i s := by
  cases i <;> rfl

theorem commandChecks_raiseError (i : Instr) (s : State) (c : ErrCode) :
    commandChecks i (s.raiseError c) = commandChecks i s := by
  cases i <;> rfl

theorem commandChecks_afterCommand (i : Instr) (s : State) :
    commandChecks i (afterCommand i s) = commandChecks i s := by
  cases i <;> rfl

/-- QUANT's shape checks pass exactly under its shape conditions (R160). -/
theorem quantShapeChecks_pass (s : State) : firstError (quantShapeChecks s) = none ↔ QuantShape s := by
  rw [quantShapeChecks_error]
  unfold QuantShape
  split_ifs <;> simp_all
  omega

theorem evenCountChecks_pass (s : State) : firstError (evenCountChecks s) = none ↔ s.count.toNat % 2 = 0 := by
  rw [evenCountChecks_error]; split_ifs <;> simp_all

theorem tileShapeChecks_pass (s : State) : firstError (tileShapeChecks s) = none ↔ TileShape s := by
  rw [tileShapeChecks_error]
  by_cases h : TileShape s
  · rw [if_pos h]; exact iff_of_true rfl h
  · rw [if_neg h]; exact iff_of_false nofun h

/-- A memory command whose checks pass leaves its stores and the success, and nothing else. -/
theorem exec_of_fits {i : Instr} {s : State} (hm : TouchesMemory i) (h : firstError (shapeChecks i s) = none)
    (hf : RangesFit s (srcLen i s) (dstLen i s)) :
    exec i s = .next { s with mem := s.mem.storeAll (commandCells i s), status := Status.success } := by
  rw [exec_of_pass ((commandChecks_pass i s).2 ⟨h, hf⟩)]
  cases i <;> first | rfl | exact absurd rfl hm.1 | exact absurd rfl hm.2

/-- A command whose first failing check has code `c` ends with that error. -/
theorem raises_of_error {i : Instr} {s : State} {c : ErrCode} (h : firstError (commandChecks i s) = some c) :
    Raises i s c.code :=
  exec_of_error h

end Sys2Proof.Machine
end

