-- ==== Sys2Proof/Laws/Bus.lean ====
section
/-! SUPPORT. What a step does with the host's next access: where a window access lands (spec/10_state.md R22, R35) and
what each access leaves (70_reset_and_hazards.md R255). -/

namespace Sys2Proof.Machine

/-- The step with an access pending performs it (R65). -/
theorem step_pending (s : State) (a : Access) (rest : List Access) :
    step { s with pending := a :: rest } = access a { s with pending := rest, reply := .nothing } := rfl

/-- The step with no access pending (R216). -/
theorem step_idle {s : State} (h : s.pending = []) : step s = .next s := by
  simp [step, hostStep, h]

theorem step_cons {s : State} {a : Access} {rest : List Access} (h : s.pending = a :: rest) :
    step s = access a { s with pending := rest, reply := .nothing } := by
  simp [step, hostStep, h]

/-! ## Where an access lands -/

theorem windowBytes_eq : windowBytes = 64 := rfl

theorem reach_slot_word (p : Params) {off : Nat} (h : off < 64) (h4 : off % 4 = 0) :
    reach p 4 (.slot off) = .slot off := by
  have hw := windowBytes_eq
  simp only [reach, reachAt]
  rw [if_neg (by omega), if_pos (by simp [h4])]

theorem reach_slot_bad (p : Params) {off size : Nat} (h : off < 64) (hb : size ≠ 4 ∨ off % 4 ≠ 0) :
    reach p size (.slot off) = .badForm := by
  have hw := windowBytes_eq
  simp only [reach, reachAt]
  rw [if_neg (by omega), if_neg (by omega)]

theorem reach_slot_outside (p : Params) (size : Nat) {off : Nat} (h : 64 ≤ off) :
    reach p size (.slot off) = .outside := by
  simp only [reach]
  exact if_pos h

theorem reach_bus_word (p : Params) {off : Nat} (h : off < 64) (h4 : off % 4 = 0) :
    reach p 4 (.bus (p.regBase + off)) = .slot off := by
  have hw := windowBytes_eq
  simp only [reach, reachAt]
  rw [if_neg (by omega), if_neg (by omega), Nat.add_sub_cancel_left, if_pos (by simp [h4])]

theorem reach_bus_bad (p : Params) {off size : Nat} (h : off < 64) (hb : size ≠ 4 ∨ off % 4 ≠ 0) :
    reach p size (.bus (p.regBase + off)) = .badForm := by
  have hw := windowBytes_eq
  simp only [reach, reachAt]
  rw [if_neg (by omega), if_neg (by omega), Nat.add_sub_cancel_left, if_neg (by omega)]

theorem reach_bus_straddling (p : Params) {a size : Nat} (h : a < p.regBase) (hs : p.regBase < a + size) :
    reach p size (.bus a) = .badForm := by
  have hw := windowBytes_eq
  simp only [reach]
  rw [if_neg (by omega), if_pos h]

theorem reach_bus_outside (p : Params) {a size : Nat}
    (h : a < p.regBase ∧ a + size ≤ p.regBase ∨ p.regBase + 64 ≤ a) : reach p size (.bus a) = .outside := by
  simp only [reach]
  exact if_pos h

/-- An access lands on a slot only as an aligned 32-bit access of the window (R35). -/
theorem reach_eq_slot {p : Params} {size off : Nat} {dest : BusAddr} (h : reach p size dest = .slot off) :
    size = 4 ∧ off % 4 = 0 ∧ off < 64 ∧ (dest = .slot off ∨ dest = .bus (p.regBase + off)) := by
  have hw := windowBytes_eq
  cases dest with
  | slot o =>
    simp only [reach, reachAt] at h
    split_ifs at h with _ h2
    simp only [Reach.slot.injEq] at h
    subst h
    exact ⟨h2.1, h2.2, by omega, .inl rfl⟩
  | bus a =>
    simp only [reach, reachAt] at h
    split_ifs at h with _ _ h3
    simp only [Reach.slot.injEq] at h
    subst h
    exact ⟨h3.1, h3.2, by omega, .inr (congrArg _ (by omega))⟩

/-- An access is well formed exactly when it misses the window or lands on a slot (R22, R35). -/
theorem reach_wf (p : Params) (size : Nat) (dest : BusAddr) :
    dest.wf p size = true ↔ reach p size dest ≠ .badForm := by
  cases dest with
  | slot off =>
    simp only [BusAddr.wf, reach, reachAt, Bool.or_eq_true, Bool.and_eq_true, decide_eq_true_eq]
    split_ifs <;> simp only [ne_eq, reduceCtorEq, not_false_eq_true, not_true_eq_false, iff_true, iff_false] <;> omega
  | bus a =>
    simp only [BusAddr.wf, reach, reachAt, Bool.or_eq_true, Bool.and_eq_true, decide_eq_true_eq]
    split_ifs <;> simp only [ne_eq, reduceCtorEq, not_false_eq_true, not_true_eq_false, iff_true, iff_false] <;> omega

/-! ## What a window write leaves -/

/-- A write of CMD starts a command (R24). -/
@[simp] theorem windowWrite_cmd (v : Word) (s : State) : windowWrite 0x04 v s = startCommand v s := rfl

/-- A write of any other slot stores or is ignored (R35). -/
theorem windowWrite_other {off : Nat} (h : off ≠ 0x04) (v : Word) (s : State) :
    windowWrite off v s = .next (s.writeSlot off v) :=
  if_neg h

/-- A write of a slot other than CMD leaves STATUS, CMD, COUT, the memory and everything that is not a read-write
register (R35). -/
theorem writeSlot_frame (s : State) (off : Nat) (v : Word) :
    s.writeSlot off v =
      { s with
        src := (s.writeSlot off v).src, dst := (s.writeSlot off v).dst, count := (s.writeSlot off v).count,
        width := (s.writeSlot off v).width, height := (s.writeSlot off v).height, ncol := (s.writeSlot off v).ncol,
        cin := (s.writeSlot off v).cin } := by
  unfold State.writeSlot
  split <;> rfl

/-- A CMD write runs the command its word names, or raises ILLEGAL (R93). -/
theorem startCommand_cases (w : Word) (s : State) :
    (∃ i, decode w = .ok i ∧ startCommand w s = exec i { s with cmd := w }) ∨
      (IllegalWord w ∧ startCommand w s = .next ({ s with cmd := w }.raiseError .illegal)) := by
  unfold startCommand
  cases h : decode w with
  | ok i => exact .inl ⟨i, rfl, rfl⟩
  | error e => exact .inr ⟨fun i hi => by simp [h] at hi, rfl⟩

/-! ## What an access can do -/

/-- What an access that does not stop can do: give a reply, start a command, store a register, store bytes that exist,
or reset (R255). -/
theorem access_cases {a : Access} {s t : State} (h : access a s = .next t) :
    (∃ r, t = { s with reply := r }) ∨
    (∃ w dest, a = .write dest 4 w ∧ (dest = .slot 4 ∨ dest = .bus (s.params.regBase + 4)) ∧
      startCommand w s = .next t) ∨
    (∃ off v, off ≠ 4 ∧ t = s.writeSlot off v) ∨
    (∃ addr bytes, inRange s.params addr bytes.length = true ∧ t = s.store (bytesAt addr bytes)) ∨
    (a = .reset ∧ t = s.resetRegisters) ∨
    (∃ w, a = .resetDuringCommand w ∧ t = resetDuring w s) := by
  cases a with
  | write dest size v =>
    simp only [access] at h
    cases hr : reach s.params size dest with
    | outside => rw [hr] at h; cases h; exact .inl ⟨_, rfl⟩
    | badForm => rw [hr] at h; cases h
    | slot off =>
      rw [hr] at h
      obtain ⟨rfl, -, -, hd⟩ := reach_eq_slot hr
      by_cases ho : off = 4
      · subst ho; exact .inr (.inl ⟨v, dest, rfl, hd, h⟩)
      · simp only [windowWrite_other ho] at h
        cases h; exact .inr (.inr (.inl ⟨off, v, ho, rfl⟩))
  | read src size =>
    simp only [access] at h
    cases hr : reach s.params size src <;> rw [hr] at h <;> cases h <;> exact .inl ⟨_, rfl⟩
  | memWrite a bytes =>
    simp only [access] at h
    split at h
    · next hr => cases h; exact .inr (.inr (.inr (.inl ⟨a, bytes, hr, rfl⟩)))
    · cases h
  | memRead a n =>
    simp only [access] at h
    split at h
    · cases h; exact .inl ⟨_, rfl⟩
    · cases h
  | reset => cases h; exact .inr (.inr (.inr (.inr (.inl ⟨rfl, rfl⟩))))
  | resetDuringCommand w => cases h; exact .inr (.inr (.inr (.inr (.inr ⟨w, rfl, rfl⟩))))

theorem tornCells_addrs (s : State) (i : Instr) :
    (tornCells s i).map Prod.fst =
      (List.range (min (dstLen i s) (s.params.memBytes - s.dst.toNat))).map (s.dst.toNat + ·) := by
  simp [tornCells, Function.comp_def]

/-- The bytes an interrupted command draws lie in its destination range and in the memory (R243, R50). -/
theorem tornCells_bounds {s : State} {i : Instr} {a : Nat} (h : a ∈ (tornCells s i).map Prod.fst) :
    s.dst.toNat ≤ a ∧ a < s.dst.toNat + dstLen i s ∧ a < s.params.memBytes := by
  rw [tornCells_addrs] at h
  obtain ⟨k, hk, rfl⟩ := List.mem_map.1 h
  have := List.mem_range.1 hk
  omega

/-- An interrupted CMD write can change the memory alone: the free bytes of the command its word names, or nothing
(R243). -/
theorem tearMemory_cases (w : Word) (s : State) :
    (∃ i, decode w = .ok i ∧ tearMemory w s = s.store (tornCells s i)) ∨ (IllegalWord w ∧ tearMemory w s = s) := by
  unfold tearMemory
  cases hd : decode w with
  | error e => exact .inr ⟨fun i hi => by simp [hd] at hi, rfl⟩
  | ok i => exact .inl ⟨i, rfl, rfl⟩

end Sys2Proof.Machine
end

