-- ==== Sys2Proof/Laws/Cells.lean ====
section
/-! SUPPORT. Where each command stores: the addresses of its cells are the destination range in order, each once. -/

namespace Sys2Proof.Machine

theorem leCells_two (a v : Nat) : leCells a 2 v = [(a, BitVec.ofNat 8 v), (a + 1, BitVec.ofNat 8 (v >>> 8))] := rfl

/-- Cells laid out in groups of `k` at dst, dst + k, … have the addresses dst, dst + 1, …. -/
theorem addrs_flatMap (dst k n : Nat) (f : Nat → List Host.Cell)
    (h : ∀ i, (f i).map Prod.fst = (List.range k).map (dst + k * i + ·)) :
    ((List.range n).flatMap f).map Prod.fst = (List.range (k * n)).map (dst + ·) := by
  induction n with
  | zero => simp
  | succ n ih =>
    rw [List.range_succ, List.flatMap_append, List.map_append, ih, Nat.mul_succ, List.range_add, List.map_append]
    congr 1
    simp only [List.flatMap_cons, List.flatMap_nil, List.append_nil, h, List.map_map]
    refine List.map_congr_left fun j _ => ?_
    simp only [Function.comp_apply]
    omega

theorem addrs_map (dst n : Nat) (f : Nat → Byte) :
    ((List.range n).map fun i => (dst + i, f i)).map Prod.fst = (List.range n).map (dst + ·) := by
  simp [Function.comp_def]

theorem cencCells_addrs (m : Memory) (src dst n : Nat) :
    (cencCells m src dst n).map Prod.fst = (List.range (2 * n)).map (dst + ·) :=
  addrs_flatMap dst 2 n _ fun i => by simp [leCells_two, List.range_succ]

theorem cdecCells_addrs (m : Memory) (src dst n : Nat) :
    (cdecCells m src dst n).map Prod.fst = (List.range (4 * n)).map (dst + ·) :=
  addrs_flatMap dst 4 n _ fun i => by simp [Color24.cells, List.range_succ]

theorem ttileCells_addrs (m : Memory) (src dst w n : Nat) :
    (ttileCells m src dst w n).map Prod.fst = (List.range n).map (dst + ·) :=
  addrs_map dst n _

theorem tlinCells_addrs (m : Memory) (src dst w n : Nat) :
    (tlinCells m src dst w n).map Prod.fst = ((List.range n).map (linearPos w)).map (dst + ·) := by
  simp [tlinCells, Function.comp_def]

theorem pack4Cells_addrs (m : Memory) (src dst n : Nat) :
    (pack4Cells m src dst n).map Prod.fst = (List.range (n / 2)).map (dst + ·) :=
  addrs_map dst (n / 2) _

theorem unpk4Cells_addrs (m : Memory) (src dst n : Nat) :
    (unpk4Cells m src dst n).map Prod.fst = (List.range (2 * (n / 2))).map (dst + ·) :=
  addrs_flatMap dst 2 (n / 2) _ fun i => by simp [List.range_succ]

theorem pack8Cells_addrs (m : Memory) (src dst n : Nat) :
    (pack8Cells m src dst n).map Prod.fst = (List.range n).map (dst + ·) :=
  addrs_map dst n _

theorem unpk8Cells_addrs (m : Memory) (src dst n : Nat) :
    (unpk8Cells m src dst n).map Prod.fst = (List.range n).map (dst + ·) :=
  addrs_map dst n _

theorem paletteCells_addrs (a : Nat) (cs : List Half) :
    (paletteCells a cs).map Prod.fst = (List.range (2 * cs.length)).map (a + ·) := by
  induction cs generalizing a with
  | nil => rfl
  | cons c rest ih =>
    rw [paletteCells, List.map_append, ih, List.length_cons, Nat.mul_succ, Nat.add_comm (2 * rest.length) 2,
      List.range_add, List.map_append, List.map_map]
    congr 1
    refine List.map_congr_left fun j _ => ?_
    simp only [Function.comp_apply]
    omega

@[simp] theorem reducePalette_length (cs : List Rgb) (n : Nat) : (reducePalette cs n).length = n := by
  simp [reducePalette, representatives]

theorem quantCells_addrs (m : Memory) (src dst count ncol : Nat) :
    (quantCells m src dst count ncol).map Prod.fst = (List.range (2 * ncol)).map (dst + ·) := by
  rw [quantCells, paletteCells_addrs, reducePalette_length]

/-- Every command but TLIN (whose addresses are `tlinCells_addrs`) stores its destination range in order. -/
theorem commandCells_addrs {i : Instr} {s : State} (hi : i ≠ .tlin) (h : firstError (shapeChecks i s) = none) :
    (commandCells i s).map Prod.fst = (List.range (dstLen i s)).map (s.dst.toNat + ·) := by
  cases i with
  | cenc => exact cencCells_addrs ..
  | cdec => exact cdecCells_addrs ..
  | cencr => rfl
  | cdecr => rfl
  | ttile => exact ttileCells_addrs ..
  | tlin => exact absurd rfl hi
  | pack4 => exact pack4Cells_addrs ..
  | unpk4 =>
    have he : s.count.toNat % 2 = 0 := by
      rw [shapeChecks, evenCountChecks_error] at h
      by_contra hne
      simp [hne] at h
    have : 2 * (s.count.toNat / 2) = s.count.toNat := by omega
    rw [commandCells, unpk4Cells_addrs, this, dstLen]
  | pack8 => exact pack8Cells_addrs ..
  | unpk8 => exact unpk8Cells_addrs ..
  | quant => exact quantCells_addrs ..

/-- Addresses laid out in order are pairwise different. -/
theorem nodup_addrs (dst n : Nat) : ((List.range n).map (dst + ·)).Nodup :=
  List.nodup_range.map fun _ _ h => Nat.add_left_cancel h

/-- A byte outside the range stored to reads as before. -/
theorem sameOutside_storeAll {cells : List Host.Cell} {dst n : Nat}
    (h : ∀ a ∈ cells.map Prod.fst, dst ≤ a ∧ a < dst + n) (m : Memory) : SameOutside m (m.storeAll cells) dst n := by
  intro x hx
  refine Memory.read_storeAll_other cells m fun c hc he => ?_
  have := h c.1 (List.mem_map_of_mem hc)
  omega

/-- Each cell a command stores reads back (TLIN apart, as above). -/
theorem read_afterCommand {i : Instr} {s : State} (hi : i ≠ .tlin) (h : firstError (shapeChecks i s) = none)
    {c : Host.Cell} (hc : c ∈ commandCells i s) : (afterCommand i s).mem.read c.1 = c.2 :=
  Memory.read_storeAll_mem _ _ (commandCells_addrs hi h ▸ nodup_addrs _ _) hc

/-- A command stores nothing outside its destination range (TLIN apart, as above). -/
theorem sameOutside_afterCommand {i : Instr} {s : State} (hi : i ≠ .tlin)
    (h : firstError (shapeChecks i s) = none) :
    SameOutside s.mem (afterCommand i s).mem s.dst.toNat (dstLen i s) := by
  refine sameOutside_storeAll (fun a ha => ?_) _
  rw [commandCells_addrs hi h] at ha
  obtain ⟨j, hj, rfl⟩ := List.mem_map.1 ha
  have := List.mem_range.1 hj
  omega

/-- A memory command leaves COUT alone, so what it leaves is its stores and the success. -/
theorem afterCommand_of_memory {i : Instr} {s : State} (h : TouchesMemory i) :
    afterCommand i s = { s with mem := (afterCommand i s).mem, status := Status.success } := by
  cases i <;> first | rfl | exact absurd rfl h.1 | exact absurd rfl h.2

end Sys2Proof.Machine
end

