-- ==== Sys2Proof/Laws/Color.lean ====
section
/-! SUPPORT. The colour conversions against the spec's formulas on natural numbers (spec/40_color.md R100, R101), and
the fields of what they give (10_state.md R10). -/

namespace Sys2Proof.Machine

/-- enc15 is R100's formula. -/
theorem enc15_toNat (c : Rgb) : (enc15 c).toNat = enc15Nat c.r.toNat c.g.toNat c.b.toNat := by
  obtain ⟨r, g, b⟩ := c
  have hr := r.isLt; have hg := g.isLt; have hb := b.isLt
  simp only [enc15, enc15Nat, BitVec.toNat_or, BitVec.toNat_shiftLeft, BitVec.toNat_setWidth,
    BitVec.toNat_ushiftRight, Nat.shiftRight_eq_div_pow, Nat.shiftLeft_eq]
  rw [Nat.mod_eq_of_lt (a := b.toNat / 2 ^ 3), Nat.mod_eq_of_lt (a := g.toNat / 2 ^ 3),
    Nat.mod_eq_of_lt (a := r.toNat / 2 ^ 3), Nat.mod_eq_of_lt, Nat.mod_eq_of_lt] <;> omega

/-- enc15 as a sum: its three fields do not meet. -/
theorem enc15_toNat_sum (c : Rgb) :
    (enc15 c).toNat = c.b.toNat / 8 * 1024 + c.g.toNat / 8 * 32 + c.r.toNat / 8 := by
  rw [enc15_toNat, enc15Nat, Nat.or_assoc]
  have hr := c.r.isLt; have hg := c.g.isLt
  simp only [Nat.shiftRight_eq_div_pow]
  rw [← Nat.shiftLeft_add_eq_or_of_lt (i := 5) (b := c.r.toNat / 2 ^ 3) (by omega),
    ← Nat.shiftLeft_add_eq_or_of_lt (i := 10) (by simp [Nat.shiftLeft_eq]; omega)]
  simp only [Nat.shiftLeft_eq]; omega

/-- expand5 is R101's formula. -/
theorem expand5_toNat (v : BitVec 5) : (expand5 v).toNat = expand5Nat v.toNat := by
  revert v; decide

/-- The top five bits of an expanded channel are the channel. -/
theorem expand5_shiftRight (v : BitVec 5) : expand5 v >>> 3 = v.setWidth 8 := by revert v; decide

/-- The fields dec24 takes are those of R10. -/
theorem extract_fields (c : Half) :
    (c.extractLsb' 0 5).toNat = redField c.toNat ∧ (c.extractLsb' 5 5).toNat = greenField c.toNat ∧
      (c.extractLsb' 10 5).toNat = blueField c.toNat := by
  simp [BitVec.extractLsb'_toNat, redField, greenField, blueField, Nat.shiftRight_eq_div_pow]

/-- Only the low 16 bits of a value matter to its fields. -/
theorem fields_mod (c : Nat) :
    redField (c % 65536) = redField c ∧ greenField (c % 65536) = greenField c ∧
      blueField (c % 65536) = blueField c := by
  simp only [redField, greenField, blueField]; omega

/-- Each field of an encoded colour is the channel without its low three bits. -/
theorem keyField_enc15 (k : Channel) (c : Rgb) : keyField k (enc15 c).toNat = c.channel k / 8 := by
  have hr := c.r.isLt; have hg := c.g.isLt; have hb := c.b.isLt
  cases k <;> simp only [keyField, redField, greenField, blueField, Rgb.channel, enc15_toNat_sum] <;> omega

end Sys2Proof.Machine
end

