-- ==== Sys2Proof/Laws/Pack.lean ====
section
/-! SUPPORT. The index packer and the tile map on natural numbers (spec/42_pack.md R140, 41_transpose.md R124). -/

namespace Sys2Proof.Machine

theorem low_nibble_toNat (x : Byte) : (x &&& 0xF#8).toNat = x.toNat % 16 := by
  rw [BitVec.toNat_and]; exact Nat.and_two_pow_sub_one_eq_mod x.toNat 4

/-- The packed byte is the low nibble plus sixteen times the high one (R140). -/
theorem packNibbles_toNat (lo hi : Byte) :
    (packNibbles lo hi).toNat = lo.toNat % 16 + hi.toNat % 16 * 16 := by
  unfold packNibbles
  rw [BitVec.toNat_or, BitVec.toNat_shiftLeft, low_nibble_toNat, low_nibble_toNat,
    Nat.mod_eq_of_lt (a := (hi.toNat % 16) <<< 4) (by rw [Nat.shiftLeft_eq]; omega), Nat.or_comm,
    ← Nat.shiftLeft_add_eq_or_of_lt (by omega), Nat.shiftLeft_eq]
  omega

/-- The tiled position of the pixel at column x and row y (R124). -/
theorem tiledPos_of_xy {w x : Nat} (y : Nat) (hx : x < w) :
    tiledPos w (x + y * w) = 64 * (y / 8 * (w / 8) + x / 8) + 8 * (y % 8) + x % 8 := by
  have hdiv : (x + y * w) / w = y := by
    rw [Nat.add_mul_div_right _ _ (by omega), Nat.div_eq_of_lt hx, Nat.zero_add]
  have hmod : (x + y * w) % w = x := by
    rw [Nat.add_mul_mod_self_right, Nat.mod_eq_of_lt hx]
  rw [tiledPos, hdiv, hmod]

end Sys2Proof.Machine
end

