-- ==== Sys2Proof/Laws/PerInstr.lean ====
section
/-! SUPPORT. Statements made per instruction: the fields of each command's word (spec/30_encoding.md R80, R86). -/

/-- The word of the command holds the command's fields and no reserved bit, and the command is well formed. -/
def Sys2Proof.Laws.Encoding.Statement (i : Sys2Proof.Instr) : Prop :=
  Sys2Proof.fieldsOf (Sys2Proof.encode i) = Sys2Proof.fieldsFor i ∧
    Sys2Proof.reservedOf (Sys2Proof.encode i) = 0 ∧ i.wf = true

namespace Sys2Proof.Laws.Encoding

theorem cenc : Statement .cenc := by unfold Statement; decide

theorem cdec : Statement .cdec := by unfold Statement; decide

theorem cencr : Statement .cencr := by unfold Statement; decide

theorem cdecr : Statement .cdecr := by unfold Statement; decide

theorem ttile : Statement .ttile := by unfold Statement; decide

theorem tlin : Statement .tlin := by unfold Statement; decide

theorem pack4 : Statement .pack4 := by unfold Statement; decide

theorem unpk4 : Statement .unpk4 := by unfold Statement; decide

theorem pack8 : Statement .pack8 := by unfold Statement; decide

theorem unpk8 : Statement .unpk8 := by unfold Statement; decide

theorem quant : Statement .quant := by unfold Statement; decide

end Sys2Proof.Laws.Encoding
end

