-- ==== Sys2Proof/Laws/Program.lean ====
section
/-! SUPPORT. A run of a host program, line by line (spec/70_reset_and_hazards.md R254). -/

namespace Sys2Proof.Machine

theorem withLines_nil (s : State) : s.withLines [] = s := rfl

/-- The first line of a program is the access the first step performs (R65, R91). -/
theorem step_withLines (s : State) (l : Line) (ls : List Line) :
    step (s.withLines (l :: ls)) = access l.access { s.withLines ls with reply := .nothing } := rfl

theorem run_zero (s : State) : Sys2Proof.core.run 0 s = .next s := rfl

/-- A run that goes on takes its first step to some state and goes on from there. -/
theorem run_succ {k : Nat} {s t : State} (h : Sys2Proof.core.run (k + 1) s = .next t) :
    ∃ u, step s = .next u ∧ Sys2Proof.core.run k u = .next t := by
  cases hs : step s with
  | next u =>
    have hu : Sys2Proof.core.step s = .next u := hs
    exact ⟨u, rfl, by simpa only [Host.Core.run, hu] using h⟩
  | fault r =>
    have hu : Sys2Proof.core.step s = .fault r := hs
    simp [Host.Core.run, hu] at h
  | refused r =>
    have hu : Sys2Proof.core.step s = .refused r := hs
    simp [Host.Core.run, hu] at h

end Sys2Proof.Machine
end

