-- ==== Sys2Proof/Laws/Quant.lean ====
section
/-! SUPPORT. The quantizer's parts: the minimum and the maximum of a channel (spec/43_quant.md R162), the sorted
sequence (R164), the bucket positions (R165), and where the palette's entries are stored (R166). -/

namespace Sys2Proof.Machine

theorem Rgb.channel_le (c : Rgb) (k : Channel) : c.channel k ≤ 255 := by
  have hr := c.r.isLt; have hg := c.g.isLt; have hb := c.b.isLt
  cases k <;> simp only [Rgb.channel] <;> omega

/-- A running minimum is below every element and below its start, and is one of them. -/
theorem foldl_min_spec (k : Channel) (cs : List Rgb) (a : Nat) :
    (∀ c ∈ cs, cs.foldl (fun acc c => min acc (c.channel k)) a ≤ c.channel k) ∧
    cs.foldl (fun acc c => min acc (c.channel k)) a ≤ a ∧
    (cs.foldl (fun acc c => min acc (c.channel k)) a = a ∨
      ∃ c ∈ cs, cs.foldl (fun acc c => min acc (c.channel k)) a = c.channel k) := by
  induction cs generalizing a with
  | nil => simp
  | cons d rest ih =>
    obtain ⟨hall, hstart, hone⟩ := ih (min a (d.channel k))
    simp only [List.foldl_cons, List.mem_cons, forall_eq_or_imp, exists_eq_or_imp]
    refine ⟨⟨by omega, hall⟩, by omega, ?_⟩
    rcases hone with h | h
    · rw [h]
      rcases Nat.le_total a (d.channel k) with h | h
      · left; omega
      · right; left; omega
    · exact .inr (.inr h)

/-- A running maximum is above every element and above its start, and is one of them. -/
theorem foldl_max_spec (k : Channel) (cs : List Rgb) (a : Nat) :
    (∀ c ∈ cs, c.channel k ≤ cs.foldl (fun acc c => max acc (c.channel k)) a) ∧
    a ≤ cs.foldl (fun acc c => max acc (c.channel k)) a ∧
    (cs.foldl (fun acc c => max acc (c.channel k)) a = a ∨
      ∃ c ∈ cs, cs.foldl (fun acc c => max acc (c.channel k)) a = c.channel k) := by
  induction cs generalizing a with
  | nil => simp
  | cons d rest ih =>
    obtain ⟨hall, hstart, hone⟩ := ih (max a (d.channel k))
    simp only [List.foldl_cons, List.mem_cons, forall_eq_or_imp, exists_eq_or_imp]
    refine ⟨⟨by omega, hall⟩, by omega, ?_⟩
    rcases hone with h | h
    · rw [h]
      rcases Nat.le_total a (d.channel k) with h | h
      · right; left; omega
      · left; omega
    · exact .inr (.inr h)

/-- The minimum of a channel over a sequence that is not empty (R162). -/
theorem channelMin_spec (k : Channel) {cs : List Rgb} (h : cs ≠ []) :
    (∀ c ∈ cs, channelMin k cs ≤ c.channel k) ∧ ∃ c ∈ cs, channelMin k cs = c.channel k := by
  obtain ⟨hall, -, hone⟩ := foldl_min_spec k cs 255
  refine ⟨hall, hone.elim (fun he => ?_) id⟩
  obtain ⟨c, hc⟩ := List.exists_mem_of_ne_nil cs h
  have hle : channelMin k cs ≤ c.channel k := hall c hc
  have hc255 := c.channel_le k
  exact ⟨c, hc, by unfold channelMin at *; omega⟩

/-- The maximum of a channel over a sequence that is not empty (R162). -/
theorem channelMax_spec (k : Channel) {cs : List Rgb} (h : cs ≠ []) :
    (∀ c ∈ cs, c.channel k ≤ channelMax k cs) ∧ ∃ c ∈ cs, channelMax k cs = c.channel k := by
  obtain ⟨hall, -, hone⟩ := foldl_max_spec k cs 0
  refine ⟨hall, hone.elim (fun he => ?_) id⟩
  obtain ⟨c, hc⟩ := List.exists_mem_of_ne_nil cs h
  have hle : c.channel k ≤ channelMax k cs := hall c hc
  exact ⟨c, hc, by unfold channelMax at *; omega⟩

theorem sortByKey_perm (k : Channel) (cs : List Rgb) : (sortByKey k cs).Perm cs := List.perm_insertionSort _ _

@[simp] theorem sortByKey_length (k : Channel) (cs : List Rgb) : (sortByKey k cs).length = cs.length :=
  (sortByKey_perm k cs).length_eq

/-- The bucket's position is inside the sequence (R165, R168). -/
theorem repIndex_lt {m n j : Nat} (h : n ≤ m) (hj : j < n) : repIndex (m / n) j < m := by
  unfold repIndex
  have hpos : 0 < m / n := Nat.div_pos h (by omega)
  have htotal : n * (m / n) ≤ m := Nat.mul_div_le m n
  have hbucket : (j + 1) * (m / n) ≤ n * (m / n) := Nat.mul_le_mul_right _ hj
  rw [Nat.add_mul] at hbucket
  omega

@[simp] theorem quantInput_length (m : Memory) (base n : Nat) : (quantInput m base n).length = n := by
  simp [quantInput]

/-- Palette entry j is the encoding of bucket j's representative (R165, R166). -/
theorem reducePalette_getElem? {cs : List Rgb} {n j : Nat} (h : n ≤ cs.length) (hj : j < n) :
    ∃ c, (sortByKey (keyChannel cs) cs)[repIndex (cs.length / n) j]? = some c ∧
      (reducePalette cs n)[j]? = some (enc15 c) := by
  have hlt : repIndex (cs.length / n) j < (sortByKey (keyChannel cs) cs).length := by
    rw [sortByKey_length]; exact repIndex_lt h hj
  refine ⟨_, List.getElem?_eq_getElem hlt, ?_⟩
  simp only [reducePalette, representatives, List.map_map, List.getElem?_map, List.getElem?_range hj, Option.map_some,
    Function.comp, sortByKey_length]
  congr 2
  rw [List.getD_eq_getElem?_getD, List.getElem?_eq_getElem hlt]
  rfl

/-- Palette entry j is stored at offset 2j (R166). -/
theorem mem_paletteCells {a j : Nat} {cs : List Half} {c : Half} (h : cs[j]? = some c) :
    ∀ x ∈ leCells (a + 2 * j) 2 c.toNat, x ∈ paletteCells a cs := by
  induction cs generalizing a j with
  | nil => simp at h
  | cons d rest ih =>
    intro x hx
    cases j with
    | zero =>
      simp only [List.getElem?_cons_zero, Option.some.injEq] at h
      subst h
      exact List.mem_append_left _ hx
    | succ j =>
      simp only [List.getElem?_cons_succ] at h
      refine List.mem_append_right _ (ih (a := a + 2) h x ?_)
      rwa [show a + 2 + 2 * j = a + 2 * (j + 1) by omega]

end Sys2Proof.Machine
end

