-- ==== Sys2Proof/Tests/Slice0.lean ====
section
/-! SUPPORT. The model's own tests: ill-formed accesses are refused, the words of the opcode map decode, and one or two
vectors of spec/95_test_vectors.md per command (each docstring names the vector its expected result comes from). -/

namespace Sys2Proof.Tests

open Sys2Proof.Machine

/-! ## Helpers -/

/-- The part the vectors of spec/95_test_vectors.md assume: MEM_BYTES 0x1000, QMAX 64; REG_BASE is an instance. -/
def part : Params := ⟨0xFFF, 63, 0x40000000⟩

/-- The reset state of that part with a launch memory of 0x00 bytes (the vectors' assumption on mem0), and with SRC, DST
and COUNT written. -/
def ranges (src dst count : Word) : State :=
  { State.reset with params := part, mem := [], src := src, dst := dst, count := count }

/-- The same with SRC, DST, WIDTH and HEIGHT written. -/
def shape (src dst w h : Word) : State :=
  { ranges src dst 0 with width := w, height := h }

/-- The same with QUANT's operands written. -/
def palette (src dst m n : Word) : State := { ranges src dst m with ncol := n }

/-- The same with one access pending. -/
def host (a : Access) : State := { ranges 0 0 0 with pending := [a] }

/-- The state with bytes in its data memory. -/
def holding (a : Nat) (bytes : List Byte) (s : State) : State := s.store (bytesAt a bytes)

/-- STATUS after an outcome. -/
def statusOf (o : Host.Outcome State Fault Refusal) : Option Word :=
  match o with
  | .next t => some t.status.toWord
  | .fault _ => none
  | .refused _ => none

/-- STATUS and `n` bytes of memory after an outcome. -/
def bytesOf (a n : Nat) (o : Host.Outcome State Fault Refusal) : Option (Word × List Byte) :=
  match o with
  | .next t => some (t.status.toWord, t.mem.readBytes a n)
  | .fault _ => none
  | .refused _ => none

/-- STATUS and COUT after an outcome. -/
def coutOf (o : Host.Outcome State Fault Refusal) : Option (Word × Word) :=
  match o with
  | .next t => some (t.status.toWord, t.cout)
  | .fault _ => none
  | .refused _ => none

/-- What the host gets back from a read of an offset in a state. -/
def readBack (s : State) (off : Nat) : Option Reply :=
  match step { s with pending := [.read (.slot off) 4] } with
  | .next t => some t.reply
  | .fault _ => none
  | .refused _ => none

/-- What the host reads back at an offset after one access. -/
def afterAccess (s : State) (a : Access) (off : Nat) : Option Reply :=
  match step { s with pending := [a] } with
  | .next t => readBack t off
  | .fault _ => none
  | .refused _ => none

/-! ## Well-formedness -/

/-- R35.5: a window access narrower than 32 bits is ill formed. -/
theorem test_byte_access_ill_formed : (Access.write (.slot 0x0C) 1 0).wf part = false := by decide

/-- R35.5: a window access not aligned to 4 bytes is ill formed. -/
theorem test_misaligned_access_ill_formed : (Access.read (.slot 0x0E) 4).wf part = false := by decide

/-- R35.5: the same by bus address, at a narrow width. -/
theorem test_bus_halfword_ill_formed : (Access.read (.bus 0x40000004) 2).wf part = false := by decide

/-- R35.5: the same by bus address, misaligned. -/
theorem test_bus_misaligned_ill_formed : (Access.write (.bus 0x40000006) 4 1).wf part = false := by decide

/-- R22, R35.5: an access that straddles the lower edge of the window is ill formed. -/
theorem test_straddling_access_ill_formed : (Access.read (.bus 0x3FFFFFFE) 4).wf part = false := by decide

/-- R35.5, log entry 23: an access of 0 bytes inside the window is ill formed in both forms of its address. -/
theorem test_empty_window_access_ill_formed :
    (Access.read (.slot 0x00) 0).wf part = false ∧ (Access.read (.bus 0x40000000) 0).wf part = false ∧
    (Access.read (.bus 0x3FFFFFFF) 0).wf part = true ∧ (Access.read (.bus 0x40000040) 0).wf part = true := by decide

/-- R50: a data-memory write past MEM_BYTES is ill formed. -/
theorem test_write_past_memory_ill_formed : (Access.memWrite 0xFFF [0, 0]).wf part = false := by decide

/-- R50: a data-memory read past MEM_BYTES is ill formed. -/
theorem test_read_past_memory_ill_formed : (Access.memRead 0x1000 1).wf part = false := by decide

/-- Accesses that the same checks let through. -/
theorem test_well_formed_accesses :
    (Access.write (.slot 0x3C) 4 0).wf part = true ∧ (Access.read (.slot 0x40) 1).wf part = true ∧
    (Access.write (.bus 0x40000004) 4 1).wf part = true ∧ (Access.read (.bus 0x3FFFFFFC) 4).wf part = true ∧
    (Access.memWrite 0xFFE [0, 0]).wf part = true ∧ (Access.memRead 0x1000 0).wf part = true := by decide

/-- R89: every command is well formed. -/
theorem test_instr_wf (i : Instr) : i.wf = true := by cases i <;> decide

/-! ## Decoding: words written out from the fields of R80 and the columns of R86 -/

/-- CENC: REG 0, D8 0, INV 0, OP 0001. -/
theorem test_decode_cenc : decode 0b0000001 = .ok .cenc := by decide

/-- CDEC: REG 0, D8 0, INV 1, OP 0001. -/
theorem test_decode_cdec : decode 0b0010001 = .ok .cdec := by decide

/-- CENCR: REG 1, D8 0, INV 0, OP 0001. -/
theorem test_decode_cencr : decode 0b1000001 = .ok .cencr := by decide

/-- CDECR: REG 1, D8 0, INV 1, OP 0001. -/
theorem test_decode_cdecr : decode 0b1010001 = .ok .cdecr := by decide

/-- TTILE: REG 0, D8 0, INV 0, OP 0010. -/
theorem test_decode_ttile : decode 0b0000010 = .ok .ttile := by decide

/-- TLIN: REG 0, D8 0, INV 1, OP 0010. -/
theorem test_decode_tlin : decode 0b0010010 = .ok .tlin := by decide

/-- PACK4: REG 0, D8 0, INV 0, OP 0011. -/
theorem test_decode_pack4 : decode 0b0000011 = .ok .pack4 := by decide

/-- UNPK4: REG 0, D8 0, INV 1, OP 0011. -/
theorem test_decode_unpk4 : decode 0b0010011 = .ok .unpk4 := by decide

/-- PACK8: REG 0, D8 1, INV 0, OP 0011. -/
theorem test_decode_pack8 : decode 0b0100011 = .ok .pack8 := by decide

/-- UNPK8: REG 0, D8 1, INV 1, OP 0011. -/
theorem test_decode_unpk8 : decode 0b0110011 = .ok .unpk8 := by decide

/-- QUANT: REG 0, D8 0, INV 0, OP 0100. -/
theorem test_decode_quant : decode 0b0000100 = .ok .quant := by decide

/-- T-E1, T-E2, T-E3: no family. -/
theorem test_decode_no_family :
    decode 0x00000000 = .error .noFamily ∧ decode 0x00000005 = .error .noFamily ∧
    decode 0x00000010 = .error .noFamily := by decide

/-- T-E4 to T-E12: bits the family does not have. -/
theorem test_decode_bad_fields :
    decode 0x00000021 = .error .badFields ∧ decode 0x00000061 = .error .badFields ∧
    decode 0x00000042 = .error .badFields ∧ decode 0x00000022 = .error .badFields ∧
    decode 0x00000043 = .error .badFields ∧ decode 0x00000053 = .error .badFields ∧
    decode 0x00000014 = .error .badFields ∧ decode 0x00000024 = .error .badFields ∧
    decode 0x00000044 = .error .badFields := by decide

/-- T-E13, T-E14, T-E15: reserved bits. -/
theorem test_decode_reserved :
    decode 0x00000081 = .error .reservedBits ∧ decode 0x80000001 = .error .reservedBits ∧
    decode 0xFFFFFFFF = .error .reservedBits := by decide

/-- The table's numbering of bits, and a word of more than 32 bits refused. -/
theorem test_decodeTableWord :
    decodeTableWord 32 0x33 = some .unpk8 ∧ decodeTableWord 8 0x41 = some .cencr ∧
    decodeTableWord 32 0x21 = none ∧ decodeTableWord 33 0x01 = none := by decide

/-! ## The first command after reset -/

/-- T-E16 and its like: with operands left at 0 the commands with no shape check complete. -/
theorem test_first_command_completes :
    ∀ w ∈ [0x01, 0x11, 0x41, 0x51, 0x03, 0x13, 0x23, 0x33],
      statusOf (step (State.reset.withFetchWord 32 w)) = some 0x00000001 := by decide

/-- T-E17, T-T20: TTILE, TLIN and QUANT find WIDTH or NCOL 0. -/
theorem test_first_command_param :
    ∀ w ∈ [0x02, 0x12, 0x04], statusOf (step (State.reset.withFetchWord 32 w)) = some 0x00000202 := by decide

/-- T-E2: an illegal word. -/
theorem test_first_command_illegal : statusOf (step (State.reset.withFetchWord 32 0x05)) = some 0x00000102 := by decide

/-! ## The register window -/

/-- T-R1: STATUS and the registers after reset, and ID. -/
theorem test_reads_after_reset :
    readBack (ranges 0 0 0) 0x00 = some (.word 0x4E420007) ∧
    ∀ off ∈ [0x04, 0x08, 0x0C, 0x10, 0x14, 0x18, 0x1C, 0x20, 0x24, 0x28],
      readBack (ranges 0 0 0) off = some (.word 0) := by decide

/-- T-R2: a write of ID is ignored. -/
theorem test_write_id_ignored :
    afterAccess (ranges 0 0 0) (.write (.slot 0x00) 4 0x12345678) 0x00 = some (.word 0x4E420007) := by decide

/-- T-R3: a write of STATUS is ignored. -/
theorem test_write_status_ignored :
    afterAccess { ranges 0 0 0 with status := ⟨true, false, 0⟩ } (.write (.slot 0x08) 4 0) 0x08 =
      some (.word 0x00000001) := by decide

/-- T-R4: a write of COUT is ignored. -/
theorem test_write_cout_ignored :
    afterAccess { ranges 0 0 0 with cout := 0xFF42297B } (.write (.slot 0x28) 4 5) 0x28 =
      some (.word 0xFF42297B) := by decide

/-- T-R5: a reserved offset reads 0 after a write. -/
theorem test_reserved_offset_reads_zero :
    afterAccess (ranges 0 0 0) (.write (.slot 0x2C) 4 0xDEADBEEF) 0x2C = some (.word 0) := by decide

/-- T-R6: SRC stores any word. -/
theorem test_src_stores_any_word :
    afterAccess (ranges 0 0 0) (.write (.slot 0x0C) 4 0xCAFEF00D) 0x0C = some (.word 0xCAFEF00D) := by decide

/-- T-R7: STATUS is not sticky. -/
theorem test_status_not_sticky :
    afterAccess { ranges 0 0 0 with status := ⟨false, true, 1⟩ } (.write (.slot 0x04) 4 0x01) 0x08 =
      some (.word 0x00000001) := by decide

/-- R92: `quant 0x600, 0x700, 5, 2` is the first five lines of program P3, with their encodings. -/
theorem test_quant_pseudo_lines :
    ((Pseudo.quant 0x600 0x700 5 2).expand.map fun ls => ls.map Line.encoding) =
      some [some (0x0C, 0x600), some (0x10, 0x700), some (0x14, 5), some (0x20, 2), some (0x04, 4)] := by decide

/-- R92: `topacked4 0x100, 0x200, 0x300, 16, 8` is lines 1 to 10 of program P2 without its STATUS read. -/
theorem test_topacked_pseudo_lines :
    ((Pseudo.topacked4 0x100 0x200 0x300 16 8).expand.map fun ls => ls.map Line.encoding) =
      some [some (0x0C, 0x100), some (0x10, 0x200), some (0x18, 16), some (0x1C, 8), some (0x04, 2),
        some (0x0C, 0x200), some (0x10, 0x300), some (0x14, 128), some (0x04, 3)] := by decide

/-- R241: a launch memory holds the bytes it is given. -/
theorem test_launch_memory :
    (State.launch ⟨2, 0, 0⟩ fun a => BitVec.ofNat 8 (7 * a)).mem = [(1, 7), (2, 14)] := by decide

/-- R254: lines 1 to 6 of program P3 run to their end; the colours are all black, so STATUS is 1. -/
theorem test_run_program :
    (match runProgram ⟨0xF, 63, 0⟩ (fun _ => 0)
        [.wr .src 0x0, .wr .dst 0x4, .wr .count 1, .wr .ncol 1, .command .quant, .rd .status] with
      | .next t => some (t.pending, t.reply)
      | .fault _ => none
      | .refused _ => none) = some ([], .word 0x00000001) := by decide +kernel

/-- R243: a reset that interrupts a command whose ranges overlap draws its destination byte, and one that interrupts a
register-form command draws none. -/
theorem test_torn_bytes :
    tornCells (ranges 0x10 0x10 1) .pack8 = [(0x10, Config.tornByte 0 0x10)] ∧
    tornCells (ranges 0 0xFFF 2) .unpk8 = [(0xFFF, Config.tornByte 0 0xFFF)] ∧
    tornCells (ranges 0x10 0x20 1) .cencr = [] := ⟨rfl, rfl, rfl⟩

/-! ## The colour converter -/

/-- T-C22: two colours; alpha is dropped. -/
theorem test_cenc_two_colours :
    bytesOf 0x40 4 (exec .cenc (holding 0 [0x7B, 0x2D, 0x43, 0x80, 0xFF, 0xFF, 0xFF, 0x00] (ranges 0 0x40 2))) =
      some (0x00000001, [0xAF, 0x20, 0xFF, 0x7F]) := by decide

/-- T-C29: no wrap at 2^32. -/
theorem test_cenc_no_wrap : statusOf (exec .cenc (ranges 0xFFFFFFFC 0 1)) = some 0x00000502 := by decide

/-- T-C23: one colour decoded. -/
theorem test_cdec_one_colour :
    bytesOf 0x40 4 (exec .cdec (holding 0x30 [0xAF, 0x20] (ranges 0x30 0x40 1))) =
      some (0x00000001, [0x7B, 0x29, 0x42, 0xFF]) := by decide

/-- T-C24: bit 15 is ignored. -/
theorem test_cdec_ignores_bit_15 :
    bytesOf 0x40 4 (exec .cdec (holding 0x30 [0x00, 0x80] (ranges 0x30 0x40 1))) =
      some (0x00000001, [0x00, 0x00, 0x00, 0xFF]) := by decide

/-- T-C34: the alpha of CIN is dropped. -/
theorem test_cencr_drops_alpha :
    coutOf (exec .cencr { ranges 0 0 0 with cin := 0x80432D7B }) = some (0x00000001, 0x000020AF) := by decide

/-- T-C36: truncation, not rounding. -/
theorem test_cencr_truncates :
    coutOf (exec .cencr { ranges 0 0 0 with cin := 0x07070707 }) = some (0x00000001, 0x00000000) := by decide

/-- T-C38: a colour decoded to a register. -/
theorem test_cdecr_colour :
    coutOf (exec .cdecr { ranges 0 0 0 with cin := 0x000020AF }) = some (0x00000001, 0xFF42297B) := by decide

/-- T-C39: the high half of CIN and bit 15 are ignored. -/
theorem test_cdecr_ignores_high_bits :
    coutOf (exec .cdecr { ranges 0 0 0 with cin := 0xFFFF8000 }) = some (0x00000001, 0xFF000000) := by decide

/-! ## The tile transposer -/

/-- T-T9, T-T10, T-T14, T-T16: the coordinate map. -/
theorem test_linearPos :
    linearPos 16 191 = 247 ∧ linearPos 16 192 = 136 ∧ linearPos 24 72 = 32 ∧ linearPos 24 191 = 191 := by decide

/-- T-T4, T-T5, T-T18: with W = 16, tiled positions 63 and 64 take linear positions 119 and 8. -/
theorem test_ttile_tile_edge :
    bytesOf 0x93F 2 (exec .ttile (holding 0x877 [0x77] (holding 0x808 [0x08] (shape 0x800 0x900 16 8)))) =
      some (0x00000001, [0x77, 0x08]) := by decide +kernel

/-- T-T27: W·H = 2^32, computed exactly. -/
theorem test_ttile_exact_length :
    statusOf (exec .ttile (shape 0 0 0x10000 0x10000)) = some 0x00000502 := by decide

/-- T-T19: tiled positions 63 and 64 return to linear positions 119 and 8. -/
theorem test_tlin_tile_edge :
    bytesOf 0xA77 1 (exec .tlin (holding 0x93F [0x77, 0x08] (shape 0x900 0xA00 16 8))) =
      some (0x00000001, [0x77]) ∧
    bytesOf 0xA08 1 (exec .tlin (holding 0x93F [0x77, 0x08] (shape 0x900 0xA00 16 8))) =
      some (0x00000001, [0x08]) := by decide +kernel

/-- T-T28: in place is refused. -/
theorem test_tlin_in_place : statusOf (exec .tlin (shape 0x100 0x100 8 8)) = some 0x00000602 := by decide

/-! ## The index packer -/

/-- T-P2: over-range indices are masked. -/
theorem test_pack4_masks :
    bytesOf 0x80 1 (exec .pack4 (holding 0x10 [0x1F, 0xA5] (ranges 0x10 0x80 2))) = some (0x00000001, [0x5F]) := by
  decide

/-- T-P9: PARAM is reported before RANGE. -/
theorem test_pack4_param_first : statusOf (exec .pack4 (ranges 0xFFFFFFFF 0 1)) = some 0x00000202 := by decide

/-- T-P6: the low nibble first. -/
theorem test_unpk4_low_nibble_first :
    bytesOf 0x80 4 (exec .unpk4 (holding 0x10 [0x21, 0x43] (ranges 0x10 0x80 4))) =
      some (0x00000001, [0x01, 0x02, 0x03, 0x04]) := by decide

/-- T-P13: the destination overlaps the source from below. -/
theorem test_unpk4_overlap : statusOf (exec .unpk4 (ranges 0x10 0x0F 4)) = some 0x00000602 := by decide

/-- T-P14: an odd count is legal at 8 bits. -/
theorem test_pack8_odd_count :
    bytesOf 0x80 3 (exec .pack8 (holding 0x10 [0x00, 0xFF, 0x7A] (ranges 0x10 0x80 3))) =
      some (0x00000001, [0x00, 0xFF, 0x7A]) := by decide

/-- T-P16: in place is refused. -/
theorem test_pack8_in_place : statusOf (exec .pack8 (ranges 0x10 0x10 1)) = some 0x00000602 := by decide

/-- T-P15: a copy. -/
theorem test_unpk8_copy :
    bytesOf 0x80 2 (exec .unpk8 (holding 0x10 [0x11, 0x22] (ranges 0x10 0x80 2))) =
      some (0x00000001, [0x11, 0x22]) := by decide

/-- T-P17: the source ends past the memory. -/
theorem test_unpk8_range : statusOf (exec .unpk8 (ranges 0xFFF 0 2)) = some 0x00000502 := by decide

/-! ## The palette quantizer -/

/-- The five colours of T-Q1. -/
def fiveColours : List Byte :=
  [0x00, 0x00, 0x00, 0x00, 0xC8, 0x0A, 0x0A, 0xFF, 0x64, 0x14, 0x1E, 0xFF, 0x32, 0xC8, 0x28, 0xFF, 0xFA, 0x1E, 0x3C,
    0xFF]

/-- T-Q21: T-Q1's palette, from adjacent ranges. -/
theorem test_quant_palette :
    bytesOf 0x614 4 (exec .quant (holding 0x600 fiveColours (palette 0x600 0x614 5 2))) =
      some (0x00000001, [0x26, 0x17, 0x39, 0x04]) := by decide

/-- T-Q4: colours with equal keys keep their order. -/
theorem test_quant_stable :
    bytesOf 0x700 2 (exec .quant (holding 0x600 [8, 0, 0, 0xFF, 5, 9, 9, 0xFF, 0, 0, 0, 0]
      (palette 0x600 0x700 3 1))) = some (0x00000001, [0x00, 0x00]) := by decide

/-! ## Witnesses: a state and operands that meet the hypotheses of each statement -/

/-- ReservedFieldsAreIllegal: bit 7 and bit 31, OP 0, 5 and 15, INV under OP 4, D8 under OP 2 and 4, REG under OP 2. -/
theorem witness_reservedFields :
    ((0x00000081 : Word).getLsbD 7 = true ∧ (0x80000001 : Word).getLsbD 31 = true) ∧
    ((0x00000010 : Word).extractLsb' 0 4 = 0 ∧ 5 ≤ ((0x00000005 : Word).extractLsb' 0 4).toNat ∧
      5 ≤ ((0x0000000F : Word).extractLsb' 0 4).toNat) ∧
    ((0x00000014 : Word).extractLsb' 0 4 = 4 ∧ (0x00000014 : Word).getLsbD 4 = true) ∧
    ((0x00000022 : Word).extractLsb' 0 4 ≠ 3 ∧ (0x00000022 : Word).getLsbD 5 = true ∧
      (0x00000024 : Word).extractLsb' 0 4 ≠ 3 ∧ (0x00000024 : Word).getLsbD 5 = true) ∧
    ((0x00000042 : Word).extractLsb' 0 4 ≠ 1 ∧ (0x00000042 : Word).getLsbD 6 = true) := by decide

/-- StepRunsDecodedCommand, IllegalWordRaisesIllegal and IdleStepHoldsState. -/
theorem witness_steps :
    decode 0x00000051 = .ok .cdecr ∧
    (0x00000021 : Word) ∉ ([0x00000001, 0x00000011, 0x00000041, 0x00000051, 0x00000002, 0x00000012, 0x00000003,
      0x00000013, 0x00000023, 0x00000033, 0x00000004] : List Word) ∧ State.reset.pending = [] := by decide

/-- RangeErrors and RangesFit for CENC (T-C26 to T-C28, T-C31): each premise at the edge of the memory. -/
theorem witness_cenc_ranges :
    RangesFit (ranges 0xFF8 0 2) 8 4 ∧ ¬SrcFits (ranges 0xFFC 0 2) 8 ∧
    (SrcFits (ranges 0 0xFFF 1) 4 ∧ ¬DstFits (ranges 0 0xFFF 1) 2) ∧
    (SrcFits (ranges 0x10 0x12 1) 4 ∧ DstFits (ranges 0x10 0x12 1) 2 ∧ SharesByte (ranges 0x10 0x12 1) 4 2) := by
  decide

/-- RangeErrors and RangesFit for CDEC: the mirror of T-C26 to T-C31. -/
theorem witness_cdec_ranges :
    RangesFit (ranges 0 0xFF8 2) 4 8 ∧ ¬SrcFits (ranges 0xFFF 0 1) 2 ∧
    (SrcFits (ranges 0 0xFFD 1) 2 ∧ ¬DstFits (ranges 0 0xFFD 1) 4) ∧
    (SrcFits (ranges 0x13 0x10 1) 2 ∧ DstFits (ranges 0x13 0x10 1) 4 ∧ SharesByte (ranges 0x13 0x10 1) 2 4) := by
  decide

/-- CdecDecodesArray and CdecrDecodesCin name the value they decode. -/
theorem witness_decoded_value :
    (0x20AF = (holding 0x30 [0xAF, 0x20] (ranges 0x30 0x40 1)).mem.readLE 0x30 2) ∧
    0x8000 = (((0xFFFF8000 : Word).extractLsb' 0 16).toNat) := by decide

/-- DecodeAfterEncode and CodecIsMonotone: the channel value 7, which reaches the error bound, and the fixed point
33. -/
theorem witness_codec :
    (dec24 (enc15 ⟨7, 33, 0⟩)).r = 0 ∧ (dec24 (enc15 ⟨7, 33, 0⟩)).g = 33 ∧ (30 : BitVec 5).toNat < (31 : BitVec 5).toNat ∧
    (7 : Byte).toNat ≤ (8 : Byte).toNat := by decide

/-- TileCoordinates and LinearPosIsBijection: the last pixel of a 16 by 8 image (T-T7) and of an 8 by 8 one. -/
theorem witness_tile_map :
    (16 % 8 = 0 ∧ 1 < 16 / 8 ∧ 7 < 8) ∧ (8 ≤ 8 ∧ 8 % 8 = 0 ∧ 63 < 8 * 8) ∧
    linearPos 16 (64 * (0 * (16 / 8) + 1) + 8 * 7 + 7) = 127 := by decide

/-- TtileTransposes, TlinTransposes and ZeroOperands: the shapes of T-T20 to T-T25 and T-T29. -/
theorem witness_tile_shapes :
    ¬TileShape (shape 0 0 0 8) ∧ ¬TileShape (shape 0 0 12 8) ∧ ¬TileShape (shape 0 0 16 4) ∧
    (TileShape (shape 0xFFFFFFFF 0xFFFFFFFF 8 0) ∧ (shape 0xFFFFFFFF 0xFFFFFFFF 8 0).height = 0) ∧
    (TileShape (shape 0xF80 0 16 8) ∧ RangesFit (shape 0xF80 0 16 8) 128 128) ∧
    (TileShape (shape 0xF81 0 16 8) ∧ ¬SrcFits (shape 0xF81 0 16 8) 128) ∧
    (TileShape (shape 0 0xF81 16 8) ∧ SrcFits (shape 0 0xF81 16 8) 128 ∧ ¬DstFits (shape 0 0xF81 16 8) 128) ∧
    (TileShape (shape 0x800 0x840 16 8) ∧ SrcFits (shape 0x800 0x840 16 8) 128 ∧
      DstFits (shape 0x800 0x840 16 8) 128 ∧ SharesByte (shape 0x800 0x840 16 8) 128 128) := by decide

/-- TransposeRoundTrip: a fresh second destination, and the first command's own source. -/
theorem witness_transpose_round_trip :
    TileShape (shape 0x800 0x900 16 8) ∧ RangesFit (shape 0x800 0x900 16 8) 128 128 ∧
    RangesFit { shape 0x800 0x900 16 8 with src := 0x900, dst := 0xA00 } 128 128 ∧
    RangesFit { shape 0x800 0x900 16 8 with src := 0x900, dst := 0x800 } 128 128 := by decide

/-- PackFourPacksPairs: T-P7, T-P9's even neighbour, T-P11, T-P12. -/
theorem witness_pack4 :
    (ranges 0 0 3).count.toNat % 2 ≠ 0 ∧ RangesFit (ranges 0x10 0x14 4) 4 2 ∧ ¬SrcFits (ranges 0xFFF 0 2) 2 ∧
    (SrcFits (ranges 0 0x1000 2) 2 ∧ ¬DstFits (ranges 0 0x1000 2) 1) ∧
    (SrcFits (ranges 0x10 0x12 4) 4 ∧ DstFits (ranges 0x10 0x12 4) 2 ∧ SharesByte (ranges 0x10 0x12 4) 4 2) := by
  decide

/-- UnpackFourSplitsBytes: T-P8 and T-P13. -/
theorem witness_unpk4 :
    (ranges 0 0 3).count.toNat % 2 ≠ 0 ∧ RangesFit (ranges 0x10 0x12 4) 2 4 ∧ ¬SrcFits (ranges 0x1000 0 2) 1 ∧
    (SrcFits (ranges 0 0xFFF 2) 1 ∧ ¬DstFits (ranges 0 0xFFF 2) 2) ∧
    (SrcFits (ranges 0x10 0x0F 4) 2 ∧ DstFits (ranges 0x10 0x0F 4) 4 ∧ SharesByte (ranges 0x10 0x0F 4) 2 4) := by
  decide

/-- EightBitFormsCopy: T-P14, T-P16, T-P17. -/
theorem witness_eight_bit_forms :
    RangesFit (ranges 0x10 0x80 3) 3 3 ∧ ¬SrcFits (ranges 0xFFF 0 2) 2 ∧
    (SrcFits (ranges 0 0xFFF 2) 2 ∧ ¬DstFits (ranges 0 0xFFF 2) 2) ∧
    (SrcFits (ranges 0x10 0x10 1) 1 ∧ DstFits (ranges 0x10 0x10 1) 1 ∧ SharesByte (ranges 0x10 0x10 1) 1 1) := by
  decide

/-- UnpackAfterPackMasks and PackRoundTrips: 16 indices and back, to a fresh place; and an index below 16. -/
theorem witness_pack_round_trips :
    (ranges 0x800 0x900 16).count.toNat % 2 = 0 ∧ RangesFit (ranges 0x800 0x900 16) 16 8 ∧
    RangesFit { ranges 0x800 0x900 16 with src := 0x900, dst := 0xA00 } 8 16 ∧
    RangesFit (ranges 0x800 0x900 16) 8 16 ∧
    RangesFit { ranges 0x800 0x900 16 with src := 0x900, dst := 0xA00 } 16 8 ∧
    RangesFit (ranges 0x800 0x900 16) 16 16 ∧
    RangesFit { ranges 0x800 0x900 16 with src := 0x900, dst := 0xA00 } 16 16 ∧
    ((holding 0x800 [0x0F] (ranges 0x800 0x900 16)).mem.read 0x800).toNat < 16 := by decide

/-- KeyChannelHasLargestRange: the ranges 250, 200, 60 of T-Q1, here over two of its colours. -/
theorem witness_ranges :
    IsRange .r [⟨0, 0, 0⟩, ⟨250, 200, 60⟩] 250 ∧ IsRange .g [⟨0, 0, 0⟩, ⟨250, 200, 60⟩] 200 ∧
    IsRange .b [⟨0, 0, 0⟩, ⟨250, 200, 60⟩] 60 := by
  refine ⟨⟨⟨0, 0, 0⟩, by decide, ⟨250, 200, 60⟩, by decide, by decide, by decide⟩,
    ⟨⟨0, 0, 0⟩, by decide, ⟨250, 200, 60⟩, by decide, by decide, by decide⟩,
    ⟨⟨0, 0, 0⟩, by decide, ⟨250, 200, 60⟩, by decide, by decide, by decide⟩⟩

/-- QuantReducesPalette's errors and ZeroOperands: T-Q11 to T-Q16, T-Q19, T-Q20, and each bound from inside. -/
theorem witness_quant_errors :
    (¬NcolLegal (palette 0 0 5 0) ∧ (palette 0 0 5 0).ncol = 0) ∧ ¬NcolLegal (palette 0 0 300 257) ∧
    (NcolLegal (palette 0 0 1 2) ∧ (palette 0 0 1 2).count.toNat < (palette 0 0 1 2).ncol.toNat) ∧
    (NcolLegal (palette 0 0 65 1) ∧ 1 ≤ 65 ∧ (palette 0 0 65 1).params.qmax < 65) ∧
    (QuantShape (palette 0xFF0 0 5 2) ∧ ¬SrcFits (palette 0xFF0 0 5 2) 20) ∧
    (QuantShape (palette 0 0xFFD 5 2) ∧ SrcFits (palette 0 0xFFD 5 2) 20 ∧ ¬DstFits (palette 0 0xFFD 5 2) 4) ∧
    (QuantShape (palette 0x600 0x610 5 2) ∧ SrcFits (palette 0x600 0x610 5 2) 20 ∧
      DstFits (palette 0x600 0x610 5 2) 4 ∧ SharesByte (palette 0x600 0x610 5 2) 20 4) := by decide

/-- QuantReducesPalette's palette: T-Q21, and 64 colours to 64 entries, the largest of this part. -/
theorem witness_quant_fits :
    (QuantShape (palette 0x600 0x614 5 2) ∧ RangesFit (palette 0x600 0x614 5 2) 20 4) ∧
    (QuantShape (palette 0x600 0x700 64 64) ∧ RangesFit (palette 0x600 0x700 64 64) 256 128) := by decide

/-- RepresentativesAreDistinct: T-Q1's two buckets of five colours. -/
theorem witness_representatives : (1 ≤ 2 ∧ 2 ≤ 5 ∧ 0 < 1 ∧ 1 < 2) ∧ repIndex (5 / 2) 0 = 1 ∧ repIndex (5 / 2) 1 = 3 := by
  decide

/-- PaletteAscendsInKey, CommandFrame and StaleRegistersHaveNoEffect: a QUANT that ends with DONE and has two
entries. -/
theorem witness_quant_done :
    ∃ t, exec .quant (palette 0x600 0x614 5 2) = .next t ∧ t.status.done = true ∧
      0 < 1 ∧ 1 < (palette 0x600 0x614 5 2).ncol.toNat :=
  ⟨_, exec_of_pass (by decide), by decide, by decide, by decide⟩

/-- QuantIgnoresAlpha: two memories that differ in the alpha of the one colour. -/
theorem witness_alpha :
    (holding 0x600 [1, 2, 3, 0xFF] (palette 0x600 0x614 1 1)).mem ≠
      (holding 0x600 [1, 2, 3, 0x80] (palette 0x600 0x614 1 1)).mem ∧
    ∀ i < 1, ∀ k < 3, (holding 0x600 [1, 2, 3, 0xFF] (palette 0x600 0x614 1 1)).mem.read (0x600 + 4 * i + k) =
      (holding 0x600 [1, 2, 3, 0x80] (palette 0x600 0x614 1 1)).mem.read (0x600 + 4 * i + k) := by decide

/-- CommandReadsOnlySource: two memories that differ in the byte after the source range. -/
theorem witness_outside_source :
    (ranges 0x10 0x80 1).mem ≠ (holding 0x11 [0xFF] (ranges 0x10 0x80 1)).mem ∧
    ∀ x < 0x11, 0x10 ≤ x → (holding 0x11 [0xFF] (ranges 0x10 0x80 1)).mem.read x = (ranges 0x10 0x80 1).mem.read x := by
  decide

/-- CommandFrame, EveryCommandEnds and CommandsAreIdempotent for a command that stores and one that does not. -/
theorem witness_commands_end :
    (∃ t, exec .unpk8 (holding 0x10 [0x11, 0x22] (ranges 0x10 0x80 2)) = .next t ∧ TouchesMemory .unpk8) ∧
    (∃ t, exec .cencr (ranges 0 0 0) = .next t ∧ ¬TouchesMemory .cencr) ∧
    (holding 0x10 [0x11, 0x22] (ranges 0x10 0x80 2)).mem.wf :=
  ⟨⟨_, exec_of_pass (by decide), by decide⟩, ⟨_, exec_of_pass (by decide), by decide⟩, by decide⟩

/-- ErrorsArePrecise and ErrorCodesByCommand: a command that ends with each code. -/
theorem witness_error_codes :
    (∃ t, exec .pack4 (ranges 0 0 3) = .next t ∧ t.status.err = true ∧ t.status.errcode = 2) ∧
    (∃ t, exec .quant (palette 0 0 1 2) = .next t ∧ t.status.errcode = 3) ∧
    (∃ t, exec .quant (palette 0 0 65 1) = .next t ∧ t.status.errcode = 4) ∧
    (∃ t, exec .unpk8 (ranges 0xFFF 0 2) = .next t ∧ t.status.errcode = 5) ∧
    (∃ t, exec .pack8 (ranges 0x10 0x10 1) = .next t ∧ t.status.errcode = 6) :=
  ⟨⟨_, exec_of_error (c := .param) (by decide), by decide, by decide⟩,
    ⟨_, exec_of_error (c := .qcount) (by decide), by decide⟩,
    ⟨_, exec_of_error (c := .capacity) (by decide), by decide⟩,
    ⟨_, exec_of_error (c := .range) (by decide), by decide⟩,
    ⟨_, exec_of_error (c := .overlap) (by decide), by decide⟩⟩

/-- LowestCodeIsReported: T-Q15, where the QCOUNT check and the RANGE check fail together. -/
theorem witness_two_failing_checks :
    (⟨true, .qcount⟩ : Check) ∈ commandChecks .quant (palette 0xFFFFFFFF 0 2 3) ∧
    (⟨true, .range⟩ : Check) ∈ commandChecks .quant (palette 0xFFFFFFFF 0 2 3) := by decide

/-- ZeroOperands and StaleRegistersHaveNoEffect: the reset state of the part; T-T24. -/
theorem witness_zero_operands :
    (ranges 0 0 0).count = 0 ∧ (ranges 0 0 0).width = 0 ∧ (ranges 0 0 0).ncol = 0 ∧
    statusOf (exec .tlin (shape 0xFFFFFFFF 0xFFFFFFFF 8 0)) = some 0x00000001 := by decide

/-- WindowReads, WindowWritesStore and ReadOnlyWritesIgnored: the first and the last slot of each kind. -/
theorem witness_window_slots :
    ((0x28, (ranges 0 0 0).cout) : Nat × Word) ∈ [(0x00, 0x4E420007), (0x28, (ranges 0 0 0).cout)] ∧
    (0x24, { ranges 0 0 0 with cin := 1 }) ∈ [(0x0C, { ranges 0 0 0 with src := 1 }),
      (0x24, { ranges 0 0 0 with cin := 1 })] ∧ 0x3C ∈ [0x00, 0x3C] := by decide

/-- StatusWordValues and StepKeepsInvariant: a state of the invariant with an error in STATUS, a listed byte and a
decoded colour in COUT. -/
theorem witness_invariant :
    State.Inv { holding 0xFFF [0x7A] (ranges 0 0 0) with
      cmd := 5, status := ⟨false, true, 1⟩, cout := 0xFF42297B } := by
  refine ⟨by decide, by decide, .inr ⟨by decide, iff_of_true (by decide) ?_⟩, by decide⟩
  intro i
  cases i <;> decide

/-- StepKeepsInvariant, StepKeepsParameters: a step of a state of the invariant. -/
theorem witness_invariant_step :
    State.Inv (host (.write (.slot 0x04) 4 0x01)) ∧
      ∃ t, step (host (.write (.slot 0x04) 4 0x01)) = .next t ∧ t.cmd ≠ (host (.write (.slot 0x04) 4 0x01)).cmd :=
  ⟨⟨by decide, by decide, .inl (by decide), by decide⟩, _, rfl, by decide⟩

/-- WindowAccessForms and BusAddressesReachWindow: the last offset inside the window and the first outside, an access of 0
bytes at offset 0, the bus addresses on either side of the window, and one that straddles its lower edge. -/
theorem witness_window_edges :
    (63 < 64 ∧ 63 % 4 ≠ 0) ∧ (0 < 64 ∧ 0 ≠ 4) ∧ 64 ≤ 64 ∧ (60 < 64 ∧ 60 % 4 = 0) ∧
    (0x3FFFFFFC < part.regBase ∧ 0x3FFFFFFC + 4 ≤ part.regBase) ∧ part.regBase + 64 ≤ 0x40000040 ∧
    (0x3FFFFFFD < part.regBase ∧ part.regBase < 0x3FFFFFFD + 4) := by decide

/-- LaunchMemoryIsParameter: the last byte of the part's memory. -/
theorem witness_launch_address : 0xFFF < part.memBytes := by decide

/-- RunsEndAtRest: a program of one line that ends in a next state, from the launch state and from a state with a further
access pending. -/
theorem witness_run :
    (∃ t, runProgram part (fun _ => 0) [.wr .src 5] = .next t) ∧
    ∃ t, Sys2Proof.core.run [Line.wr .src 5].length ((host (.read (.slot 0x0C) 4)).withLines [.wr .src 5]) = .next t :=
  ⟨⟨_, rfl⟩, _, rfl⟩

/-- OnlyCommandOrResetChangesStatus: a CMD write by bus address that changes STATUS, and a reset that does. -/
theorem witness_status_changes :
    statusOf (step (host (.write (.bus 0x40000004) 4 0x02))) = some 0x00000202 ∧
    statusOf (step { host .reset with status := ⟨true, false, 0⟩ }) = some 0x00000000 := by decide

/-- LittleEndianStores: the largest 16-bit value. -/
theorem witness_little_endian : 0xFFFF < 2 ^ (8 * 2) := by decide

/-- HostMemoryAccesses: the last bytes of the memory, and one byte further. -/
theorem witness_memory_edges :
    (0xFFE + [0x11, 0x22].length ≤ part.memBytes ∧ part.memBytes < 0xFFF + [0x11, 0x22].length) ∧
    (0xFFF + 1 ≤ part.memBytes ∧ part.memBytes < 0x1000 + 1) := by decide

/-- ResetDuringCommand: a word that names a command and one that names none. -/
theorem witness_interrupted_words : decode 0x00000023 = .ok .pack8 ∧ IllegalWord 0x00000085 :=
  ⟨by decide, fun i => by cases i <;> decide⟩

end Sys2Proof.Tests
end

/-! PROOF. What no step changes: the parameters of the part (spec/00_scope.md R5), and the host's accesses behind the
one the step performs (20_memory.md R65). -/

namespace Sys2Proof.Machine

/-! ## The parameters and the pending accesses, per operation -/

@[simp] theorem writeSlot_params (s : State) (off : Nat) (v : Word) : (s.writeSlot off v).params = s.params := by
  rw [writeSlot_frame]

@[simp] theorem writeSlot_pending (s : State) (off : Nat) (v : Word) : (s.writeSlot off v).pending = s.pending := by
  rw [writeSlot_frame]

@[simp] theorem tearMemory_params (w : Word) (s : State) : (tearMemory w s).params = s.params := by
  rcases tearMemory_cases w s with ⟨i, -, h⟩ | ⟨-, h⟩ <;> simp [h]

@[simp] theorem tearMemory_pending (w : Word) (s : State) : (tearMemory w s).pending = s.pending := by
  rcases tearMemory_cases w s with ⟨i, -, h⟩ | ⟨-, h⟩ <;> simp [h]

@[simp] theorem resetDuring_params (w : Word) (s : State) : (resetDuring w s).params = s.params :=
  tearMemory_params w s

@[simp] theorem resetDuring_pending (w : Word) (s : State) : (resetDuring w s).pending = s.pending :=
  tearMemory_pending w s

theorem exec_keeps_params_pending {i : Instr} {s t : State} (h : exec i s = .next t) :
    t.params = s.params ∧ t.pending = s.pending := by
  rw [exec_keeps h]
  exact ⟨rfl, rfl⟩

theorem startCommand_keeps_params_pending {w : Word} {s t : State} (h : startCommand w s = .next t) :
    t.params = s.params ∧ t.pending = s.pending := by
  rcases startCommand_cases w s with ⟨i, -, hs⟩ | ⟨-, hs⟩
  · exact exec_keeps_params_pending (s := { s with cmd := w }) (hs.symm.trans h)
  · cases hs.symm.trans h
    exact ⟨rfl, rfl⟩

theorem access_keeps_params_pending {a : Access} {s t : State} (h : access a s = .next t) :
    t.params = s.params ∧ t.pending = s.pending := by
  rcases access_cases h with ⟨r, rfl⟩ | ⟨w, dest, -, -, hc⟩ | ⟨off, v, -, rfl⟩ | ⟨addr, bytes, -, rfl⟩ | ⟨-, rfl⟩ |
    ⟨w, -, rfl⟩
  case inr.inl => exact startCommand_keeps_params_pending hc
  all_goals simp

/-! ## The step -/

/-- Settles O56: with nothing pending the step holds the state; otherwise it performs the head access on a state that
holds the tail, and no access changes the parameters or the pending accesses. -/
theorem stepKeepsParameters : Obligations.StepKeepsParameters := by
  intro s t h
  cases hp : s.pending with
  | nil =>
    cases (step_idle hp).symm.trans h
    exact ⟨rfl, hp⟩
  | cons a rest => exact access_keeps_params_pending ((step_cons hp).symm.trans h)

end Sys2Proof.Machine

/-! PROOF. The register window and the host's data-memory accesses (spec/10_state.md R22-R38): a law per outcome of
`reach`, when an access goes on, how STATUS ends after a command and which access can change it. -/

namespace Sys2Proof.Machine

/-! ## A window access, by where it lands -/

/-- An access outside the window only leaves the host's list (R22). -/
theorem step_of_outside {s : State} {dest : BusAddr} {size : Nat} (h : reach s.params size dest = .outside) (v : Word)
    (rest : List Access) :
    step { s with pending := .write dest size v :: rest } = .next { s with pending := rest, reply := .nothing } ∧
      step { s with pending := .read dest size :: rest } = .next { s with pending := rest, reply := .nothing } := by
  simp only [step_pending, access, h, and_self]

/-- An access of another width or alignment is refused by its name (R35.5). -/
theorem step_of_badForm {s : State} {dest : BusAddr} {size : Nat} (h : reach s.params size dest = .badForm) (v : Word)
    (rest : List Access) :
    step { s with pending := .write dest size v :: rest } = .refused (.windowAccess dest size) ∧
      step { s with pending := .read dest size :: rest } = .refused (.windowAccess dest size) := by
  simp only [step_pending, access, h, and_self]

/-- An access that lands on a slot writes or reads it (R35). -/
theorem step_of_slot {s : State} {dest : BusAddr} {size off : Nat} (h : reach s.params size dest = .slot off)
    (v : Word) (rest : List Access) :
    step { s with pending := .write dest size v :: rest } =
        windowWrite off v { s with pending := rest, reply := .nothing } ∧
      step { s with pending := .read dest size :: rest } =
        .next { s with pending := rest, reply := .word (s.readSlot off) } := by
  simp only [step_pending, access, h, true_and]
  rfl

/-- An aligned 32-bit write of a slot other than CMD stores or is ignored (R35). -/
theorem step_write_slot (s : State) {off : Nat} (h : off < 64) (h4 : off % 4 = 0) (hcmd : off ≠ 4) (v : Word)
    (rest : List Access) :
    step { s with pending := .write (.slot off) 4 v :: rest } =
      .next (State.writeSlot { s with pending := rest, reply := .nothing } off v) := by
  rw [(step_of_slot (reach_slot_word s.params h h4) v rest).1, windowWrite_other hcmd]

/-! ## The window -/

/-- Settles O40: each of the sixteen offsets is a slot, and reading it is a case of `State.readSlot`. -/
theorem windowReads : Obligations.WindowReads := by
  intro s off v rest h
  have hslot : off < 64 ∧ off % 4 = 0 ∧ s.readSlot off = v := by
    simp only [List.mem_cons, Prod.mk.injEq, List.not_mem_nil, or_false] at h
    casesm* _ ∨ _, _ ∧ _ <;> subst_vars <;> exact ⟨by decide, by decide, rfl⟩
  obtain ⟨hlt, h4, rfl⟩ := hslot
  exact (step_of_slot (reach_slot_word s.params hlt h4) 0 rest).2

/-- Settles O43: each of the seven offsets is a slot other than CMD, and storing to it is a case of
`State.writeSlot`. -/
theorem windowWritesStore : Obligations.WindowWritesStore := by
  intro s t off v rest h
  have hslot : off < 64 ∧ off % 4 = 0 ∧ off ≠ 4 ∧
      State.writeSlot { s with pending := rest, reply := .nothing } off v =
        { t with pending := rest, reply := .nothing } := by
    simp only [List.mem_cons, Prod.mk.injEq, List.not_mem_nil, or_false] at h
    casesm* _ ∨ _, _ ∧ _ <;> subst_vars <;> exact ⟨by decide, by decide, by decide, rfl⟩
  obtain ⟨hlt, h4, hcmd, hw⟩ := hslot
  rw [step_write_slot s hlt h4 hcmd, hw]

/-- Settles O44: each of the eight offsets is a slot other than CMD that `State.writeSlot` leaves alone. -/
theorem readOnlyWritesIgnored : Obligations.ReadOnlyWritesIgnored := by
  intro s off v rest h
  have hslot : off < 64 ∧ off % 4 = 0 ∧ off ≠ 4 ∧
      State.writeSlot { s with pending := rest, reply := .nothing } off v =
        { s with pending := rest, reply := .nothing } := by
    simp only [List.mem_cons, List.not_mem_nil, or_false] at h
    casesm* _ ∨ _ <;> subst_vars <;> exact ⟨by decide, by decide, by decide, rfl⟩
  obtain ⟨hlt, h4, hcmd, hw⟩ := hslot
  rw [step_write_slot s hlt h4 hcmd, hw]

/-- Settles O45: the first two clauses are accesses of a bad form, the third one outside the window. -/
theorem windowAccessForms : Obligations.WindowAccessForms := by
  intro s off a size v rest
  refine ⟨fun hlt hbad dest hdest => ?_, fun hbelow hinside => ?_, fun houtside => ?_⟩
  · rcases hdest with rfl | rfl
    · exact step_of_badForm (reach_slot_bad s.params hlt hbad) v rest
    · exact step_of_badForm (reach_bus_bad s.params hlt hbad) v rest
  · exact step_of_badForm (reach_bus_straddling s.params hbelow hinside) v rest
  · exact step_of_outside (reach_slot_outside s.params size houtside) v rest

/-- Settles O46: inside the window both forms of an address land on the same slot. -/
theorem busAddressesReachWindow : Obligations.BusAddressesReachWindow := by
  intro s off a size v rest
  refine ⟨fun hlt h4 => ?_, fun houtside => step_of_outside (reach_bus_outside s.params houtside) v rest⟩
  obtain ⟨hbusWrite, hbusRead⟩ := step_of_slot (reach_bus_word s.params hlt h4) v rest
  obtain ⟨hslotWrite, hslotRead⟩ := step_of_slot (reach_slot_word s.params hlt h4) v rest
  exact ⟨hbusWrite.trans hslotWrite.symm, hbusRead.trans hslotRead.symm⟩

/-! ## STATUS -/

/-- The layout of STATUS, bit by bit (R25). -/
theorem Status.getLsbD_toWord (t : Status) {k : Nat} (hk : k < 32) :
    t.toWord.getLsbD k =
      if k = 0 then t.done else if k = 1 then t.err else !decide (k < 8) && t.errcode.getLsbD (k - 8) := by
  simp only [Status.toWord, BitVec.getLsbD_or, BitVec.getLsbD_shiftLeft, BitVec.getLsbD_setWidth,
    BitVec.getLsbD_ofBool]
  split_ifs with h0 h1
  · subst h0; simp
  · subst h1; simp
  · have hpred : k - 1 ≠ 0 := by omega
    have hle : k - 8 < 32 := by omega
    simp [h0, hpred, hk, hle]

/-- Settles O41: each field of the word is read off its bits. -/
theorem statusWordBits : Obligations.StatusWordBits := by
  intro t
  refine ⟨t.getLsbD_toWord (by decide), t.getLsbD_toWord (by decide), ?_, ?_, ?_⟩ <;>
    refine BitVec.eq_of_getLsbD_eq fun k hk => ?_ <;>
    rw [BitVec.getLsbD_extractLsb', t.getLsbD_toWord (by omega), if_neg (by omega), if_neg (by omega)]
  · have hbelow : 2 + k < 8 := by omega
    simp [hbelow]
  · simp [hk]
  · have hpast : t.errcode.getLsbD (16 + k - 8) = false := BitVec.getLsbD_of_ge _ _ (by omega)
    simp [hpast]

/-- Settles O42: the word of each of the eight legal values of STATUS. -/
theorem statusWordValues : Obligations.StatusWordValues := by
  intro s hinv
  rcases Status.legal_cases hinv.status with h | h | ⟨c, h⟩
  · rw [h]; decide
  · rw [h]; decide
  · rw [h]; cases c <;> decide

/-! ## STATUS and the commands -/

/-- Settles O30: a command ends with the error of its first failing check, or with the success. -/
theorem everyCommandEnds : Obligations.EveryCommandEnds := by
  intro i s
  cases hc : firstError (commandChecks i s) with
  | some c => exact ⟨_, exec_of_error hc, rfl⟩
  | none => exact ⟨_, exec_of_pass hc, rfl⟩

/-- No check reads STATUS (R36). -/
theorem commandChecks_status (i : Instr) (s : State) (x : Status) :
    commandChecks i { s with status := x } = commandChecks i s := by
  cases i <;> rfl

/-- No perform phase reads STATUS (R36). -/
theorem afterCommand_status (i : Instr) (s : State) (x : Status) :
    afterCommand i { s with status := x } = afterCommand i s := by
  cases i <;> rfl

/-- Settles O37: neither phase of a command reads STATUS, and both ends of a command overwrite it. -/
theorem earlierOutcomeHasNoEffect : Obligations.EarlierOutcomeHasNoEffect := by
  intro i s x
  rw [exec_eq, exec_eq, commandChecks_status, afterCommand_status]
  cases firstError (commandChecks i s) <;> rfl

/-- Settles O47: of what an access can do, giving a reply, storing a register and storing bytes leave STATUS and CMD
alone; a command start and the two resets are the cases the statement names. -/
theorem onlyCommandOrResetChangesStatus : Obligations.OnlyCommandOrResetChangesStatus := by
  intro s t h hchange
  cases hp : s.pending with
  | nil =>
    cases (step_idle hp).symm.trans h
    simp at hchange
  | cons a rest =>
    refine ⟨a, rest, rfl, ?_⟩
    rw [step_cons hp] at h
    rcases access_cases h with ⟨r, rfl⟩ | ⟨w, dest, rfl, hdest, -⟩ | ⟨off, v, -, rfl⟩ | ⟨addr, bytes, -, rfl⟩ |
      ⟨rfl, -⟩ | ⟨w, rfl, -⟩
    · simp at hchange
    · exact .inl ⟨dest, w, rfl, hdest⟩
    · rw [writeSlot_frame] at hchange
      simp at hchange
    · simp at hchange
    · exact .inr (.inl rfl)
    · exact .inr (.inr ⟨w, rfl⟩)

/-! ## The host's data-memory accesses -/

/-- Bytes laid at `a`, a + 1, … read back (R38). -/
theorem read_storeAll_bytesAt (m : Memory) (a : Nat) (bytes : List Byte) {k : Nat} (hk : k < bytes.length) :
    (m.storeAll (bytesAt a bytes)).read (a + k) = bytes[k] := by
  have hmem : (a + k, bytes[k]) ∈ bytesAt a bytes := by
    rw [bytesAt_eq]
    exact List.mem_map.2 ⟨k, List.mem_range.2 hk, by rw [List.getD_eq_getElem _ _ hk]⟩
  exact Memory.read_storeAll_mem _ m (bytesAt_addrs a bytes ▸ nodup_addrs a bytes.length) hmem

/-- Bytes laid at `a`, a + 1, … leave every other byte alone (R38). -/
theorem sameOutside_bytesAt (m : Memory) (a : Nat) (bytes : List Byte) :
    SameOutside m (m.storeAll (bytesAt a bytes)) a bytes.length := by
  refine sameOutside_storeAll (fun x hx => ?_) m
  rw [bytesAt_addrs] at hx
  obtain ⟨k, hk, rfl⟩ := List.mem_map.1 hx
  have := List.mem_range.1 hk
  omega

/-- A host write of bytes that exist stores them (R38). -/
theorem access_memWrite_of_inRange {s : State} {a : Nat} {bytes : List Byte}
    (h : inRange s.params a bytes.length = true) : access (.memWrite a bytes) s = .next (s.store (bytesAt a bytes)) :=
  if_pos h

/-- A host write of bytes that do not all exist stops by name (R50, log entry 7). -/
theorem access_memWrite_of_not_inRange {s : State} {a : Nat} {bytes : List Byte}
    (h : inRange s.params a bytes.length ≠ true) :
    access (.memWrite a bytes) s = .fault (.noSuchByte a bytes.length) :=
  if_neg h

/-- A host read of bytes that exist replies them (R38). -/
theorem access_memRead_of_inRange {s : State} {a n : Nat} (h : inRange s.params a n = true) :
    access (.memRead a n) s = .next { s with reply := .bytes (s.mem.readBytes a n) } :=
  if_pos h

/-- A host read of bytes that do not all exist stops by name (R50, log entry 7). -/
theorem access_memRead_of_not_inRange {s : State} {a n : Nat} (h : inRange s.params a n ≠ true) :
    access (.memRead a n) s = .fault (.noSuchByte a n) :=
  if_neg h

/-- Settles O49: the four cases of a host data-memory access, a write or a read, in range or not. -/
theorem hostMemoryAccesses : Obligations.HostMemoryAccesses := by
  intro s a n bytes rest
  simp only [step_pending]
  refine ⟨fun hfits => ?_, fun hfits => ?_, fun hne hpast => ?_, fun hne hpast => ?_⟩
  · refine ⟨_, access_memWrite_of_inRange ?_, fun k hk => ?_, sameOutside_bytesAt s.mem a bytes⟩
    · rwa [inRange_iff, List.length_eq_zero_iff]
    · rw [List.getElem?_eq_getElem hk]
      exact congrArg some (read_storeAll_bytesAt s.mem a bytes hk)
  · exact access_memRead_of_inRange ((inRange_iff ..).2 hfits)
  · refine access_memWrite_of_not_inRange ?_
    rw [Ne, inRange_iff, List.length_eq_zero_iff]
    exact not_or.2 ⟨hne, hpast.not_ge⟩
  · refine access_memRead_of_not_inRange ?_
    rw [Ne, inRange_iff]
    exact not_or.2 ⟨hne, hpast.not_ge⟩

/-! ## Which accesses stop -/

/-- A CMD write always goes on: an illegal word is an error in STATUS, not a stop (R87, R93). -/
theorem startCommand_next (w : Word) (s : State) : ∃ t, startCommand w s = .next t := by
  rcases startCommand_cases w s with ⟨i, -, hs⟩ | ⟨-, hs⟩
  · obtain ⟨t, ht, -⟩ := everyCommandEnds i { s with cmd := w }
    exact ⟨t, hs.trans ht⟩
  · exact ⟨_, hs⟩

/-- A write that lands on a slot always goes on (R35). -/
theorem windowWrite_next (off : Nat) (v : Word) (s : State) : ∃ t, windowWrite off v s = .next t := by
  by_cases hcmd : off = 4
  · subst hcmd; exact startCommand_next v s
  · exact ⟨_, windowWrite_other hcmd v s⟩

/-- Settles O57: a window access stops exactly when it lands in a bad form, a data-memory access exactly when it is out
of range, and a reset never. -/
theorem onlyIllFormedAccessesStop : Obligations.OnlyIllFormedAccessesStop := by
  intro s a rest
  cases a with
  | write dest size v =>
    rw [Access.wf, reach_wf]
    cases hr : reach s.params size dest with
    | outside => exact iff_of_true nofun ⟨_, (step_of_outside hr v rest).1⟩
    | slot off =>
      rw [(step_of_slot hr v rest).1]
      exact iff_of_true nofun (windowWrite_next off v _)
    | badForm =>
      rw [(step_of_badForm hr v rest).1]
      exact iff_of_false (absurd rfl) nofun
  | read src size =>
    rw [Access.wf, reach_wf]
    cases hr : reach s.params size src with
    | outside => exact iff_of_true nofun ⟨_, (step_of_outside hr 0 rest).2⟩
    | slot off => exact iff_of_true nofun ⟨_, (step_of_slot hr 0 rest).2⟩
    | badForm =>
      rw [(step_of_badForm hr 0 rest).2]
      exact iff_of_false (absurd rfl) nofun
  | memWrite addr bytes =>
    rw [step_pending]
    by_cases hr : inRange s.params addr bytes.length = true
    · exact iff_of_true hr ⟨_, access_memWrite_of_inRange hr⟩
    · exact iff_of_false hr fun ⟨t, ht⟩ => nomatch ht.symm.trans (access_memWrite_of_not_inRange hr)
  | memRead addr n =>
    rw [step_pending]
    by_cases hr : inRange s.params addr n = true
    · exact iff_of_true hr ⟨_, access_memRead_of_inRange hr⟩
    · exact iff_of_false hr fun ⟨t, ht⟩ => nomatch ht.symm.trans (access_memRead_of_not_inRange hr)
  | reset => exact iff_of_true rfl ⟨_, rfl⟩
  | resetDuringCommand w => exact iff_of_true rfl ⟨_, rfl⟩

end Sys2Proof.Machine

/-! PROOF. What every command stores and where (spec/20_memory.md R50, 30_encoding.md R89): the tile map covers its
range, a command's stores cover exactly its destination range and depend on its source range alone; so its frame, its
noninterference and its idempotence (R61). -/

namespace Sys2Proof.Machine

/-! ## The tile map covers the positions below W·H -/

/-- The linear position of the pixel at column wx and row wy of the tile in column tx and row ty (R120). -/
theorem linearPos_of_tile {w tx wx wy : Nat} (ty : Nat) (htx : tx < w / 8) (hwx : wx < 8) (hwy : wy < 8) :
    linearPos w (64 * (ty * (w / 8) + tx) + 8 * wy + wx) = (tx * 8 + wx) + (ty * 8 + wy) * w := by
  have htile : (64 * (ty * (w / 8) + tx) + 8 * wy + wx) / 64 = tx + ty * (w / 8) := by omega
  have hwithin : (64 * (ty * (w / 8) + tx) + 8 * wy + wx) % 64 = 8 * wy + wx := by omega
  have hcol : (tx + ty * (w / 8)) % (w / 8) = tx := by rw [Nat.add_mul_mod_self_right, Nat.mod_eq_of_lt htx]
  have hrow : (tx + ty * (w / 8)) / (w / 8) = ty := by
    rw [Nat.add_mul_div_right _ _ (by omega), Nat.div_eq_of_lt htx, Nat.zero_add]
  have hx : (8 * wy + wx) % 8 = wx := by omega
  have hy : (8 * wy + wx) / 8 = wy := by omega
  simp only [linearPos, htile, hwithin, hcol, hrow, hx, hy]

/-- The tiled position the inverse map gives is the one its pixel's linear position comes from (R124 law 2). -/
theorem linearPos_tiledPos {w : Nat} (hw : w ≠ 0) (hw8 : w % 8 = 0) (p : Nat) : linearPos w (tiledPos w p) = p := by
  have hx : p % w < w := Nat.mod_lt p (by omega)
  have hp : p % w + p / w * w = p := Nat.mod_add_div' p w
  rw [tiledPos, linearPos_of_tile _ (by omega) (by omega) (by omega),
    show p % w / 8 * 8 + p % w % 8 = p % w by omega, show p / w / 8 * 8 + p / w % 8 = p / w by omega, hp]

/-- A column below W and a row below H make a position below W·H. -/
theorem position_lt {a b x y : Nat} (hx : x < a) (hy : y < b) : x + y * a < a * b := by
  calc x + y * a < (y + 1) * a := by rw [Nat.add_mul]; omega
    _ ≤ b * a := Nat.mul_le_mul_right a hy
    _ = a * b := Nat.mul_comm b a

/-- An image of whole tiles has 64 pixels a tile (R121). -/
theorem area_eq_tiles {w h : Nat} (hw8 : w % 8 = 0) (hh8 : h % 8 = 0) : w * h = 64 * (w / 8 * (h / 8)) := by
  obtain ⟨a, rfl⟩ := Nat.dvd_of_mod_eq_zero hw8
  obtain ⟨b, rfl⟩ := Nat.dvd_of_mod_eq_zero hh8
  rw [Nat.mul_div_cancel_left a (by decide), Nat.mul_div_cancel_left b (by decide)]
  ring

/-- The tile map stays below W·H (R124 law 1). -/
theorem linearPos_lt {w h t : Nat} (hw : w ≠ 0) (hw8 : w % 8 = 0) (hh8 : h % 8 = 0) (ht : t < w * h) :
    linearPos w t < w * h := by
  have harea := area_eq_tiles hw8 hh8
  have hcol : t / 64 % (w / 8) < w / 8 := Nat.mod_lt _ (by omega)
  have hrow : t / 64 / (w / 8) < h / 8 := Nat.div_lt_of_lt_mul (by omega)
  exact position_lt (by omega) (by omega)

/-- The inverse tile map stays below W·H (R124 law 1). -/
theorem tiledPos_lt {w h p : Nat} (hw : w ≠ 0) (hw8 : w % 8 = 0) (hh8 : h % 8 = 0) (hp : p < w * h) :
    tiledPos w p < w * h := by
  have harea := area_eq_tiles hw8 hh8
  have hx : p % w < w := Nat.mod_lt p (by omega)
  have hy : p / w < h := Nat.div_lt_of_lt_mul hp
  have htile : p % w / 8 + p / w / 8 * (w / 8) < w / 8 * (h / 8) := position_lt (by omega) (by omega)
  rw [tiledPos]
  omega

/-! ## A command stores its destination range -/

/-- Addresses laid out in order from `dst` are those of the range. -/
theorem mem_rangeAddrs {dst n x : Nat} : x ∈ (List.range n).map (dst + ·) ↔ dst ≤ x ∧ x < dst + n := by
  rw [← List.range'_eq_map_range, List.mem_range'_1]

/-- TLIN stores its destination range, in another order than the other commands (R123, R124 law 1). -/
theorem mem_tlinCells_addrs {m : Memory} {src dst w h x : Nat} (hw : w ≠ 0) (hw8 : w % 8 = 0) (hh8 : h % 8 = 0) :
    x ∈ (tlinCells m src dst w (w * h)).map Prod.fst ↔ dst ≤ x ∧ x < dst + w * h := by
  rw [tlinCells_addrs, ← mem_rangeAddrs]
  simp only [List.mem_map, List.mem_range]
  constructor
  · rintro ⟨_, ⟨t, ht, rfl⟩, rfl⟩
    exact ⟨_, linearPos_lt hw hw8 hh8 ht, rfl⟩
  · rintro ⟨p, hp, rfl⟩
    exact ⟨p, ⟨tiledPos w p, tiledPos_lt hw hw8 hh8 hp, linearPos_tiledPos hw hw8 p⟩, rfl⟩

/-- A command whose shape is legal stores to the bytes of its destination range, all of them and no others (R50, R89).
-/
theorem mem_commandCells_addrs {i : Instr} {s : State} (h : firstError (shapeChecks i s) = none) (x : Nat) :
    x ∈ (commandCells i s).map Prod.fst ↔ s.dst.toNat ≤ x ∧ x < s.dst.toNat + dstLen i s := by
  by_cases hi : i = .tlin
  · subst hi
    obtain ⟨hw, hw8, hh8⟩ := (tileShapeChecks_pass s).1 h
    exact mem_tlinCells_addrs hw hw8 hh8
  · rw [commandCells_addrs hi h, mem_rangeAddrs]

/-- A command whose shape is legal leaves every byte outside its destination range alone (R50). -/
theorem sameOutside_commandCells {i : Instr} {s : State} (h : firstError (shapeChecks i s) = none) (m : Memory) :
    SameOutside m (m.storeAll (commandCells i s)) s.dst.toNat (dstLen i s) :=
  sameOutside_storeAll (fun x hx => (mem_commandCells_addrs h x).1 hx) m

/-- A command with an empty destination range stores nothing (R60). -/
theorem commandCells_eq_nil {i : Instr} {s : State} (h : firstError (shapeChecks i s) = none) (hd : dstLen i s = 0) :
    commandCells i s = [] := by
  refine List.eq_nil_iff_forall_not_mem.2 fun c hc => ?_
  have := (mem_commandCells_addrs h c.1).1 (List.mem_map_of_mem hc)
  omega

/-- A register-form command stores nothing (R89). -/
theorem commandCells_of_register {i : Instr} (h : ¬TouchesMemory i) (s : State) : commandCells i s = [] := by
  rcases not_and_or.1 h with h | h <;> rw [not_not.1 h] <;> rfl

/-- A memory command leaves COUT alone (R33). -/
theorem commandCout_of_memory {i : Instr} (h : TouchesMemory i) (s : State) : commandCout i s = s.cout :=
  congrArg State.cout (afterCommand_of_memory h)

/-- What a command that performs leaves in the memory. -/
@[simp] theorem mem_afterCommand (i : Instr) (s : State) :
    (afterCommand i s).mem = s.mem.storeAll (commandCells i s) := rfl

/-- Settles O31: an error changes STATUS alone; a command that performs stores to its destination range, and only the
register forms, which store nothing, write COUT. -/
theorem commandFrame : Obligations.CommandFrame := by
  intro i s t h
  refine ⟨exec_keeps h, ?_⟩
  rcases exec_cases h with ⟨c, -, rfl⟩ | ⟨hpass, rfl⟩
  · exact ⟨fun x _ => rfl, fun _ => rfl, fun _ => rfl⟩
  · obtain ⟨hshape, -⟩ := (commandChecks_pass i s).1 hpass
    refine ⟨sameOutside_commandCells hshape s.mem, fun hm => commandCout_of_memory hm s, fun hr => ?_⟩
    rw [mem_afterCommand, commandCells_of_register hr]
    rfl

/-! ## A command reads its source range -/

/-- The memory holds the same bytes in the command's source range as the state does. -/
def SameOnSource (i : Instr) (s : State) (m : Memory) : Prop :=
  ∀ k, k < srcLen i s → m.read (s.src.toNat + k) = s.mem.read (s.src.toNat + k)

theorem Memory.rgb_congr {m m' : Memory} {base n i : Nat}
    (h : ∀ k, k < 4 * n → m.read (base + k) = m'.read (base + k)) (hi : i < n) : m.rgb base i = m'.rgb base i := by
  unfold Memory.rgb
  congr 1
  · exact h (4 * i) (by omega)
  · exact h (4 * i + 1) (by omega)
  · exact h (4 * i + 2) (by omega)

theorem Memory.color15_congr {m m' : Memory} {base n i : Nat}
    (h : ∀ k, k < 2 * n → m.read (base + k) = m'.read (base + k)) (hi : i < n) :
    m.color15 base i = m'.color15 base i := by
  have hlow := h (2 * i) (by omega)
  have hhigh : m.read (base + 2 * i + 1) = m'.read (base + 2 * i + 1) := h (2 * i + 1) (by omega)
  simp only [Memory.color15, Memory.readLE_two, hlow, hhigh]

/-- The stores of a command whose shape is legal depend on the bytes of its source range alone (R50, R89). -/
theorem commandCells_congr {i : Instr} {s : State} {m : Memory} (hshape : firstError (shapeChecks i s) = none)
    (h : SameOnSource i s m) : commandCells i { s with mem := m } = commandCells i s := by
  cases i with
  | cenc =>
    refine List.flatMap_congr fun j hj => ?_
    rw [Memory.rgb_congr h (List.mem_range.1 hj)]
  | cdec =>
    refine List.flatMap_congr fun j hj => ?_
    rw [Memory.color15_congr h (List.mem_range.1 hj)]
  | cencr => rfl
  | cdecr => rfl
  | ttile =>
    obtain ⟨hw, hw8, hh8⟩ := (tileShapeChecks_pass s).1 hshape
    refine List.map_congr_left fun t ht => ?_
    rw [h _ (linearPos_lt hw hw8 hh8 (List.mem_range.1 ht))]
  | tlin =>
    refine List.map_congr_left fun t ht => ?_
    rw [h t (List.mem_range.1 ht)]
  | pack4 =>
    refine List.map_congr_left fun j hj => ?_
    have hpair : j < s.count.toNat / 2 := List.mem_range.1 hj
    have hlow := h (2 * j) (by rw [srcLen]; omega)
    have hhigh := h (2 * j + 1) (by rw [srcLen]; omega)
    rw [hlow, Nat.add_assoc, hhigh]
  | unpk4 =>
    refine List.flatMap_congr fun j hj => ?_
    rw [h j (List.mem_range.1 hj)]
  | pack8 =>
    refine List.map_congr_left fun j hj => ?_
    rw [h j (List.mem_range.1 hj)]
  | unpk8 =>
    refine List.map_congr_left fun j hj => ?_
    rw [h j (List.mem_range.1 hj)]
  | quant =>
    have hinput : quantInput m s.src.toNat s.count.toNat = quantInput s.mem s.src.toNat s.count.toNat :=
      List.map_congr_left fun j hj => Memory.rgb_congr h (List.mem_range.1 hj)
    simp only [commandCells, quantCells, hinput]

/-- What a command leaves in COUT does not depend on the memory (R104, R105). -/
theorem commandCout_mem (i : Instr) (s : State) (m : Memory) : commandCout i { s with mem := m } = commandCout i s := by
  cases i <;> rfl

/-- Settles O38: the checks do not read the memory, and the stores of a command that performs depend on its source
range alone and cover its whole destination range. -/
theorem commandReadsOnlySource : Obligations.CommandReadsOnlySource := by
  intro i s m h
  have hsame : SameOnSource i s m := fun k hk => h _ (by omega) (by omega)
  have hchecks := congrArg firstError (commandChecks_mem i s m)
  cases hc : firstError (commandChecks i s) with
  | some c => exact ⟨_, _, exec_of_error hc, exec_of_error (hchecks.trans hc), rfl, rfl, nofun⟩
  | none =>
    obtain ⟨hshape, -⟩ := (commandChecks_pass i s).1 hc
    refine ⟨_, _, exec_of_pass hc, exec_of_pass (hchecks.trans hc), rfl, commandCout_mem i s m, fun _ x hlo hhi => ?_⟩
    rw [mem_afterCommand, mem_afterCommand, commandCells_congr hshape hsame]
    exact Memory.read_storeAll_agree _ _ _ ((mem_commandCells_addrs hshape x).2 ⟨hlo, hhi⟩)

/-! ## A command run again (R61) -/

/-- Stores made twice leave what they left the first time. -/
theorem Memory.storeAll_storeAll_same (cells : List Host.Cell) {m : Memory} (h : m.wf) :
    (m.storeAll cells).storeAll cells = m.storeAll cells := by
  have hwf := Memory.wf_storeAll cells h
  refine Memory.ext_read (Memory.wf_storeAll cells hwf) hwf fun a => ?_
  by_cases ha : a ∈ cells.map Prod.fst
  · exact Memory.read_storeAll_agree cells _ _ ha
  · exact Memory.read_storeAll_other cells _ fun c hc he => ha (he ▸ List.mem_map_of_mem hc)

/-- A command that performs leaves its source range alone, since its ranges share no byte (R57). -/
theorem sameOnSource_afterCommand {i : Instr} {s : State} (h : firstError (commandChecks i s) = none) :
    SameOnSource i s (afterCommand i s).mem := by
  obtain ⟨hshape, -, -, hdisjoint⟩ := (commandChecks_pass i s).1 h
  intro k hk
  by_cases hd : dstLen i s = 0
  · rw [mem_afterCommand, commandCells_eq_nil hshape hd]
    rfl
  · refine sameOutside_commandCells hshape s.mem _ ?_
    unfold SharesByte at hdisjoint
    omega

/-- A command that performs makes the same stores when it is run again. -/
theorem commandCells_afterCommand {i : Instr} {s : State} (h : firstError (commandChecks i s) = none) :
    commandCells i (afterCommand i s) = commandCells i s := by
  have hmem : commandCells i (afterCommand i s) = commandCells i { s with mem := (afterCommand i s).mem } := by
    cases i <;> rfl
  rw [hmem, commandCells_congr ((commandChecks_pass i s).1 h).1 (sameOnSource_afterCommand h)]

theorem commandCout_afterCommand (i : Instr) (s : State) : commandCout i (afterCommand i s) = commandCout i s := by
  cases i <;> rfl

/-- Performing a command twice leaves what it left the first time (R61). -/
theorem afterCommand_afterCommand {i : Instr} {s : State} (hwf : s.mem.wf)
    (h : firstError (commandChecks i s) = none) : afterCommand i (afterCommand i s) = afterCommand i s := by
  rw [afterCommand, commandCells_afterCommand h, commandCout_afterCommand, mem_afterCommand,
    Memory.storeAll_storeAll_same _ hwf]
  rfl

/-- Settles O35: an error and a perform phase leave what the checks read, so the second run ends the first one's way;
an error is raised again, and a perform phase makes the same stores again. -/
theorem commandsAreIdempotent : Obligations.CommandsAreIdempotent := by
  intro i s t hwf h
  rcases exec_cases h with ⟨c, hc, rfl⟩ | ⟨hpass, rfl⟩
  · exact exec_of_error ((congrArg firstError (commandChecks_raiseError i s c)).trans hc)
  · rw [exec_of_pass ((congrArg firstError (commandChecks_afterCommand i s)).trans hpass),
      afterCommand_afterCommand hwf hpass]

/-! ## Operands left at 0 -/

/-- A memory command whose ranges are both empty leaves the success and nothing else (R60). -/
theorem exec_of_empty_ranges {i : Instr} {s : State} (hm : TouchesMemory i) (h : firstError (shapeChecks i s) = none)
    (hs : srcLen i s = 0) (hd : dstLen i s = 0) : exec i s = .next { s with status := Status.success } := by
  rw [exec_of_fits hm h ⟨.inl hs, .inl hd, fun hshare => by omega⟩, commandCells_eq_nil h hd]
  rfl

/-- A command whose shape is illegal ends with the error of its first failing shape check (R205). -/
theorem raises_of_shapeError {i : Instr} {s : State} {c : ErrCode} (h : firstError (shapeChecks i s) = some c) :
    Raises i s c.code :=
  raises_of_error (by rw [firstError_commandChecks, h]; rfl)

/-- Settles O39: COUNT 0, and HEIGHT 0 with a legal WIDTH, give empty ranges; WIDTH 0 and NCOL 0 fail a shape check. -/
theorem zeroOperands : Obligations.ZeroOperands := by
  intro s
  refine ⟨fun h i hi => ?_, fun h => ?_, fun hshape h i hi => ?_, fun h => ?_⟩
  · rcases hi with rfl | rfl | rfl | rfl | rfl | rfl <;>
      exact exec_of_empty_ranges (by decide) (by simp [shapeChecks, firstError, evenCountChecks_error, h])
        (by simp [srcLen, h]) (by simp [dstLen, h])
  · have hparam : firstError (tileShapeChecks s) = some .param := by simp [tileShapeChecks_error, TileShape, h]
    exact ⟨raises_of_shapeError (i := .ttile) hparam, raises_of_shapeError (i := .tlin) hparam⟩
  · have hpass := (tileShapeChecks_pass s).2 hshape
    rcases hi with rfl | rfl <;>
      exact exec_of_empty_ranges (by decide) hpass (by simp [srcLen, h]) (by simp [dstLen, h])
  · exact raises_of_shapeError (i := .quant) (c := .param) (by simp [shapeChecks, quantShapeChecks_error, NcolLegal, h])

end Sys2Proof.Machine

/-! PROOF. Little-endian values of the data memory (spec/20_memory.md R52, R53), and the invariant every step keeps
(R50, R55; 10_state.md R24, R25, R33). -/

namespace Sys2Proof.Machine

/-! ## Little-endian values -/

/-- MemRead is the sum of the bytes at their places (R52). -/
theorem Memory.readLE_eq_sum (m : Memory) (a n : Nat) :
    m.readLE a n = ((List.range n).map fun k => (m.read (a + k)).toNat * 2 ^ (8 * k)).sum := by
  induction n generalizing a with
  | zero => rfl
  | succ n ih =>
    rw [Memory.readLE_succ, ih, List.range_succ_eq_map, List.map_cons, List.sum_cons, List.map_map,
      ← List.sum_map_mul_left]
    congr 2
    · simp
    · refine List.map_congr_left fun k _ => ?_
      have hpow : 2 ^ (8 * (k + 1)) = 256 * 2 ^ (8 * k) := by ring
      rw [Function.comp_apply, Nat.succ_eq_add_one, hpow, show a + (k + 1) = a + 1 + k by omega]
      ring

/-- Bytes that are those of `v` make up its low 8n bits (R52). -/
theorem Memory.readLE_of_bytes {m : Memory} {a n v : Nat}
    (h : ∀ k, k < n → m.read (a + k) = BitVec.ofNat 8 (v >>> (8 * k))) : m.readLE a n = v % 2 ^ (8 * n) := by
  induction n generalizing a v with
  | zero => simp [Memory.readLE, Nat.mod_one]
  | succ n ih =>
    have hlow : (m.read a).toNat = v % 256 := congrArg BitVec.toNat (h 0 (by omega))
    have hrest : m.readLE (a + 1) n = v / 256 % 2 ^ (8 * n) := by
      refine ih fun k hk => ?_
      have hshift : v >>> (8 * (k + 1)) = (v / 256) >>> (8 * k) := by
        rw [show 8 * (k + 1) = 8 + 8 * k by omega, Nat.shiftRight_add, Nat.shiftRight_eq_div_pow v 8]
      rw [show a + 1 + k = a + (k + 1) by omega, h (k + 1) (by omega), hshift]
    rw [Memory.readLE_succ, hlow, hrest, show 2 ^ (8 * (n + 1)) = 256 * 2 ^ (8 * n) by ring, Nat.mod_mul]

/-- MemWrite stores byte k of the value at a + k (R53). -/
theorem Memory.read_writeLE (m : Memory) (a n v : Nat) {k : Nat} (hk : k < n) :
    (m.writeLE a n v).read (a + k) = BitVec.ofNat 8 (v >>> (8 * k)) := by
  have hmem : (a + k, BitVec.ofNat 8 (v >>> (8 * k))) ∈ leCells a n v :=
    List.mem_map.2 ⟨k, List.mem_range.2 hk, rfl⟩
  exact Memory.read_storeAll_mem _ m (leCells_addrs a n v ▸ nodup_addrs a n) hmem

/-- MemWrite changes no byte but its own (R53). -/
theorem sameOutside_writeLE (m : Memory) (a n v : Nat) : SameOutside m (m.writeLE a n v) a n :=
  sameOutside_storeAll (fun _ hx => mem_rangeAddrs.1 (leCells_addrs a n v ▸ hx)) m

/-- Settles O48: the sum is by induction on the length, and reading back what was written takes the value's low 8n bits,
which are the value. -/
theorem littleEndianStores : Obligations.LittleEndianStores := by
  intro m a n v hv
  refine ⟨m.readLE_eq_sum a n, ?_, sameOutside_writeLE m a n v, fun k hk => ?_⟩
  · rw [Memory.readLE_of_bytes fun k hk => m.read_writeLE a n v hk, Nat.mod_eq_of_lt hv]
  · rw [m.read_writeLE a n v hk, BitVec.toNat_ofNat]
    exact (Nat.and_two_pow_sub_one_eq_mod _ 8).symm

/-! ## The invariant, field by field -/

/-- Stores to bytes that exist leave a memory of bytes that exist, in canonical form (R50). -/
theorem Memory.fits_storeAll {p : Params} {m : Memory} {cells : List Host.Cell} (h : m.Fits p)
    (hc : ∀ a ∈ cells.map Prod.fst, a < p.memBytes) : (m.storeAll cells).Fits p := by
  obtain ⟨hwf, hlt⟩ := h
  refine ⟨Memory.wf_storeAll cells hwf, fun c hmem => ?_⟩
  rcases Memory.mem_storeAll hmem with hmem | hmem
  · exact hc c.1 (List.mem_map_of_mem hmem)
  · exact hlt c hmem

/-- The stores of a command whose checks pass are to bytes that exist (R50, R58). -/
theorem commandCells_lt_memBytes {i : Instr} {s : State} (h : firstError (commandChecks i s) = none) :
    ∀ a ∈ (commandCells i s).map Prod.fst, a < s.params.memBytes := by
  obtain ⟨hshape, -, hdst, -⟩ := (commandChecks_pass i s).1 h
  intro a ha
  have hbounds := (mem_commandCells_addrs hshape a).1 ha
  unfold DstFits at hdst
  omega

/-- Bytes of a range that exists are laid at addresses that exist (R50). -/
theorem bytesAt_lt_memBytes {p : Params} {a : Nat} {bytes : List Byte} (h : inRange p a bytes.length = true) :
    ∀ x ∈ (bytesAt a bytes).map Prod.fst, x < p.memBytes := by
  intro x hx
  have hbounds := mem_rangeAddrs.1 (bytesAt_addrs a bytes ▸ hx)
  rw [inRange_iff] at h
  omega

/-- No check of a command raises ILLEGAL: it is the error of a word that names no command (R87, R201). -/
theorem commandChecks_code_ne_illegal (i : Instr) (s : State) : ∀ c ∈ commandChecks i s, c.code ≠ .illegal := by
  cases i <;> simp [commandChecks, shapeChecks, tileShapeChecks, evenCountChecks, quantShapeChecks, rangeChecks]

/-- A command's STATUS is legal, is not the one of reset, and is not ILLEGAL (R25, R203, R204). -/
theorem exec_status {i : Instr} {s t : State} (h : exec i s = .next t) :
    t.status.legal = true ∧ t.status ≠ Status.clear ∧ t.status ≠ Status.error .illegal := by
  rcases exec_cases h with ⟨c, hc, rfl⟩ | ⟨-, rfl⟩
  · obtain ⟨d, hd, -, rfl⟩ := firstError_some hc
    exact ⟨Status.legal_error _, Status.error_ne_clear _,
      fun he => commandChecks_code_ne_illegal i s d hd (Status.error_inj he)⟩
  · exact ⟨rfl, nofun, nofun⟩

/-- An encoded colour has bit 15 clear (R55, R100). -/
theorem enc15_lt (c : Rgb) : (enc15 c).toNat < 2 ^ 15 := by
  have hr := c.r.isLt; have hg := c.g.isLt; have hb := c.b.isLt
  rw [enc15_toNat_sum]
  omega

/-- The top byte of a Color24's word is its alpha (R54). -/
theorem Color24.alpha_toWord (c : Color24) : c.toWord.extractLsb' 24 8 = c.a := by
  refine BitVec.eq_of_getLsbD_eq fun k hk => ?_
  have hb : c.b.getLsbD (24 + k - 16) = false := BitVec.getLsbD_of_ge _ _ (by omega)
  have hg : c.g.getLsbD (24 + k - 8) = false := BitVec.getLsbD_of_ge _ _ (by omega)
  have hr : c.r.getLsbD (24 + k) = false := BitVec.getLsbD_of_ge _ _ (by omega)
  have hword : 24 + k < 32 := by omega
  simp [Color24.toWord, hk, hb, hg, hr, hword]

/-- COUT keeps its form: only the register forms write it, an encoded colour or a decoded one (R33, R104, R105). -/
theorem commandCout_form {s : State} (i : Instr) (h : CoutForm s.cout) : CoutForm (commandCout i s) := by
  by_cases hm : TouchesMemory i
  · rwa [commandCout_of_memory hm]
  · rcases not_and_or.1 hm with hi | hi <;> rw [not_not.1 hi]
    · left
      rw [commandCout, BitVec.toNat_setWidth_of_le (by decide)]
      exact enc15_lt _
    · right
      exact Color24.alpha_toWord _

/-! ## The invariant, operation by operation -/

/-- A command that its word in CMD names leaves a state of the invariant (R24, R203, R204). -/
theorem exec_inv {i : Instr} {s t : State} (hmem : s.mem.Fits s.params) (hcout : CoutForm s.cout)
    (hd : decode s.cmd = .ok i) (h : exec i s = .next t) : t.Inv := by
  obtain ⟨hlegal, hclear, hillegal⟩ := exec_status h
  have hcmd : CmdMatchesStatus t := by
    refine .inr ⟨hclear, iff_of_false hillegal fun hw => hw i ?_⟩
    rw [exec_keeps h]
    exact hd
  rcases exec_cases h with ⟨c, -, rfl⟩ | ⟨hpass, rfl⟩
  · exact ⟨hmem, hlegal, hcmd, hcout⟩
  · exact ⟨Memory.fits_storeAll hmem (commandCells_lt_memBytes hpass), hlegal, hcmd, commandCout_form i hcout⟩

/-- A CMD write leaves a state of the invariant: a command's, or ILLEGAL beside a word that names none (R24, R87). -/
theorem startCommand_inv {w : Word} {s t : State} (hi : s.Inv) (h : startCommand w s = .next t) : t.Inv := by
  rcases startCommand_cases w s with ⟨i, hd, hs⟩ | ⟨hw, hs⟩
  · exact exec_inv (s := { s with cmd := w }) hi.mem hi.cout hd (hs.symm.trans h)
  · cases hs.symm.trans h
    exact ⟨hi.mem, Status.legal_error _, .inr ⟨Status.error_ne_clear _, iff_of_true rfl hw⟩, hi.cout⟩

theorem writeSlot_inv {s : State} (off : Nat) (v : Word) (hi : s.Inv) : (s.writeSlot off v).Inv := by
  rw [writeSlot_frame]
  exact ⟨hi.mem, hi.status, hi.cmd, hi.cout⟩

theorem store_inv {s : State} {cells : List Host.Cell} (hi : s.Inv)
    (hc : ∀ a ∈ cells.map Prod.fst, a < s.params.memBytes) : (s.store cells).Inv :=
  ⟨Memory.fits_storeAll hi.mem hc, hi.status, hi.cmd, hi.cout⟩

theorem resetRegisters_inv {s : State} (hmem : s.mem.Fits s.params) : s.resetRegisters.Inv :=
  ⟨hmem, rfl, .inl ⟨rfl, rfl⟩, .inl (Nat.two_pow_pos 15)⟩

theorem tearMemory_inv {s : State} (w : Word) (hi : s.Inv) : (tearMemory w s).Inv := by
  rcases tearMemory_cases w s with ⟨i, -, h⟩ | ⟨-, h⟩ <;> rw [h]
  · exact store_inv hi fun a ha => (tornCells_bounds ha).2.2
  · exact hi

theorem resetDuring_inv {s : State} (w : Word) (hi : s.Inv) : (resetDuring w s).Inv := by
  have hreset := resetRegisters_inv (tearMemory_inv w hi).mem
  exact ⟨hreset.mem, hreset.status, hreset.cmd, hreset.cout⟩

theorem access_inv {a : Access} {s t : State} (hi : s.Inv) (h : access a s = .next t) : t.Inv := by
  rcases access_cases h with ⟨r, rfl⟩ | ⟨w, dest, -, -, hc⟩ | ⟨off, v, -, rfl⟩ | ⟨addr, bytes, hr, rfl⟩ | ⟨-, rfl⟩ |
    ⟨w, -, rfl⟩
  · exact ⟨hi.mem, hi.status, hi.cmd, hi.cout⟩
  · exact startCommand_inv hi hc
  · exact writeSlot_inv off v hi
  · exact store_inv hi (bytesAt_lt_memBytes hr)
  · exact resetRegisters_inv hi.mem
  · exact resetDuring_inv w hi

/-- Settles O55: a step holds the state or performs an access on it, and every access keeps the invariant. -/
theorem stepKeepsInvariant : Obligations.StepKeepsInvariant := by
  intro s t hi h
  cases hp : s.pending with
  | nil =>
    cases (step_idle hp).symm.trans h
    exact hi
  | cons a rest =>
    exact access_inv (s := { s with pending := rest, reply := .nothing }) ⟨hi.mem, hi.status, hi.cmd, hi.cout⟩
      ((step_cons hp).symm.trans h)

end Sys2Proof.Machine

/-! PROOF. The command words (spec/30_encoding.md): a word names a command exactly when it is that command's encoding
(R86), so no word with a reserved bit or a field outside its family's columns does (R81-R85); a CMD write runs the
command its word names or raises ILLEGAL (R87, R93); and a command reads no register outside its row (R89). -/

namespace Sys2Proof

/-! ## The decoder and the encoder -/

/-- Every command's word holds its fields and no reserved bit (R80, R86): the laws of the eleven rows, together. -/
theorem encodingStatement (i : Instr) : Laws.Encoding.Statement i := by
  cases i with
  | cenc => exact Laws.Encoding.cenc
  | cdec => exact Laws.Encoding.cdec
  | cencr => exact Laws.Encoding.cencr
  | cdecr => exact Laws.Encoding.cdecr
  | ttile => exact Laws.Encoding.ttile
  | tlin => exact Laws.Encoding.tlin
  | pack4 => exact Laws.Encoding.pack4
  | unpk4 => exact Laws.Encoding.unpk4
  | pack8 => exact Laws.Encoding.pack8
  | unpk8 => exact Laws.Encoding.unpk8
  | quant => exact Laws.Encoding.quant

/-- The case of R93 selects a command exactly for the fields of its row (R86). -/
theorem selectCommand_eq_ok {f : Fields} {i : Instr} : selectCommand f = .ok i ↔ f = fieldsFor i := by
  constructor
  · intro h
    obtain ⟨op, inv, d8, reg⟩ := f
    have hop (n : Nat) (hn : op.toNat = n) : op = BitVec.ofNat 4 n := by
      rw [← hn, BitVec.ofNat_toNat, BitVec.setWidth_eq]
    unfold selectCommand at h
    split at h
    case h_12 => split at h <;> cases h
    all_goals
      next hn hinv hd8 hreg =>
        cases h
        simp only at hn hinv hd8 hreg
        rw [hop _ hn, hinv, hd8, hreg]
        rfl
  · rintro rfl
    cases i <;> rfl

/-- A word names a command exactly when it has no reserved bit and the command's fields (R85, R93). -/
theorem decode_eq_ok {w : Word} {i : Instr} : decode w = .ok i ↔ reservedOf w = 0 ∧ fieldsOf w = fieldsFor i := by
  rw [← selectCommand_eq_ok, decode]
  split_ifs with h
  · exact iff_of_false nofun fun ⟨h0, _⟩ => h h0
  · exact (and_iff_right (not_not.1 h)).symm

/-- Bits 31:7 of a word with no reserved bit are 0 (R85). -/
theorem getLsbD_of_reservedOf_eq_zero {w : Word} (h : reservedOf w = 0) {k : Nat} (h7 : 7 ≤ k) (hk : k < 32) :
    w.getLsbD k = false := by
  have hbit := congrArg (·.getLsbD (k - 7)) h
  simpa [reservedOf, show k - 7 < 25 by omega, show 7 + (k - 7) = k by omega] using hbit

/-- A word with no reserved bit is made of its fields (R80). -/
theorem assemble_fieldsOf {w : Word} (h : reservedOf w = 0) : assemble (fieldsOf w) = w := by
  refine BitVec.eq_of_getLsbD_eq fun k hk => ?_
  by_cases hlow : k < 7
  · interval_cases k <;> simp [assemble, fieldsOf]
  · have hbit : w.getLsbD k = false := getLsbD_of_reservedOf_eq_zero h (by omega) hk
    simp [assemble, fieldsOf, hbit]
    omega

/-- Decoding and encoding agree in both directions (R86). -/
theorem decode_eq_ok_iff_eq_encode {w : Word} {i : Instr} : decode w = .ok i ↔ w = encode i := by
  rw [decode_eq_ok]
  constructor
  · rintro ⟨hreserved, hfields⟩
    rw [encode, ← hfields, assemble_fieldsOf hreserved]
  · rintro rfl
    obtain ⟨hfields, hreserved, -⟩ := encodingStatement i
    exact ⟨hreserved, hfields⟩

/-! ## The opcode map -/

/-- The opcode map: each command beside its word (R86). -/
def opcodeMap : List (Word × Instr) := Instr.all.map fun i => (encode i, i)

theorem Instr.mem_all (i : Instr) : i ∈ Instr.all := by cases i <;> decide

/-- A row of the opcode map is a command's word and the command (R86). -/
theorem mem_opcodeMap {w : Word} {i : Instr} : (w, i) ∈ opcodeMap ↔ w = encode i := by
  simp only [opcodeMap, List.mem_map, Prod.mk.injEq]
  constructor
  · rintro ⟨_, -, rfl, rfl⟩
    rfl
  · rintro rfl
    exact ⟨i, i.mem_all, rfl, rfl⟩

/-- The rows of the opcode map, written out (R86). -/
theorem opcodeMap_eq :
    opcodeMap = [(0x00000001, .cenc), (0x00000011, .cdec), (0x00000041, .cencr), (0x00000051, .cdecr),
      (0x00000002, .ttile), (0x00000012, .tlin), (0x00000003, .pack4), (0x00000013, .unpk4), (0x00000023, .pack8),
      (0x00000033, .unpk8), (0x00000004, .quant)] := by decide

/-- Settles O2: a word names a command exactly when it is its encoding, and the rows of the opcode map are the
commands beside their encodings. -/
theorem decodeInvertsEncode : Obligations.DecodeInvertsEncode := by
  intro w i
  rw [← opcodeMap_eq, mem_opcodeMap]
  exact ⟨decode_eq_ok_iff_eq_encode, decode_eq_ok_iff_eq_encode⟩

/-- Settles O1: each word, beside its command, is a row of the opcode map. -/
theorem opcodeMapWordsDecode : Obligations.OpcodeMapWordsDecode := by
  and_intros <;> exact (decodeInvertsEncode _ _).1.2 (by decide)

/-! ## Illegal words -/

/-- The rows of the opcode map use OP 1 to 4, INV only below OP 4, D8 only with OP 3 and REG only with OP 1 (R81-R84,
R86). -/
theorem fieldsFor_columns (i : Instr) :
    ((fieldsFor i).op ≠ 0 ∧ (fieldsFor i).op.toNat < 5) ∧ ((fieldsFor i).op = 4 → (fieldsFor i).inv = false) ∧
      ((fieldsFor i).op ≠ 3 → (fieldsFor i).d8 = false) ∧ ((fieldsFor i).op ≠ 1 → (fieldsFor i).reg = false) := by
  cases i <;> decide

/-- The fields of a word that names a command keep the columns of the opcode map (R86). -/
theorem fieldsOf_columns {w : Word} {i : Instr} (h : decode w = .ok i) :
    (w.extractLsb' 0 4 ≠ 0 ∧ (w.extractLsb' 0 4).toNat < 5) ∧ (w.extractLsb' 0 4 = 4 → w.getLsbD 4 = false) ∧
      (w.extractLsb' 0 4 ≠ 3 → w.getLsbD 5 = false) ∧ (w.extractLsb' 0 4 ≠ 1 → w.getLsbD 6 = false) := by
  have hcolumns := fieldsFor_columns i
  rwa [← (decode_eq_ok.1 h).2] at hcolumns

/-- Settles O3: a word that names a command has no reserved bit, and fields that keep the columns of the opcode map. -/
theorem reservedFieldsAreIllegal : Obligations.ReservedFieldsAreIllegal := by
  intro w
  refine ⟨fun ⟨k, h7, hk, hbit⟩ i hi => ?_, fun hop i hi => ?_, fun hop hinv i hi => ?_, fun hop hd8 i hi => ?_,
    fun hop hreg i hi => ?_⟩
  · obtain ⟨hreserved, -⟩ := decode_eq_ok.1 hi
    exact Bool.false_ne_true ((getLsbD_of_reservedOf_eq_zero hreserved h7 hk).symm.trans hbit)
  all_goals obtain ⟨⟨hzero, hlt⟩, hinv', hd8', hreg'⟩ := fieldsOf_columns hi
  · exact hop.elim hzero hlt.not_ge
  · exact Bool.false_ne_true ((hinv' hop).symm.trans hinv)
  · exact Bool.false_ne_true ((hd8' hop).symm.trans hd8)
  · exact Bool.false_ne_true ((hreg' hop).symm.trans hreg)

/-- A word that is not one of the eleven names no command (R87). -/
theorem illegalWord_of_not_mem {w : Word} (h : w ∉ Instr.all.map encode) : Machine.IllegalWord w := by
  intro i hi
  rw [decode_eq_ok_iff_eq_encode] at hi
  exact h (hi ▸ List.mem_map_of_mem i.mem_all)

end Sys2Proof

namespace Sys2Proof.Machine

/-! ## A write of CMD -/

/-- A word that names a command runs it (R93). -/
theorem startCommand_of_ok {w : Word} {i : Instr} (h : decode w = .ok i) (s : State) :
    startCommand w s = exec i { s with cmd := w } := by
  rw [startCommand, h]

/-- A word that names no command raises ILLEGAL (R87). -/
theorem startCommand_of_illegal {w : Word} (h : IllegalWord w) (s : State) :
    startCommand w s = .next (State.raiseError { s with cmd := w } .illegal) := by
  rcases startCommand_cases w s with ⟨i, hi, -⟩ | ⟨-, hs⟩
  · exact absurd hi (h i)
  · exact hs

/-- A write that lands on CMD starts a command (R24). -/
theorem step_write_cmd {s : State} {dest : BusAddr} (h : reach s.params 4 dest = .slot 4) (w : Word)
    (rest : List Access) :
    step { s with pending := .write dest 4 w :: rest } =
      startCommand w { s with pending := rest, reply := .nothing } :=
  (step_of_slot h w rest).1

/-- Settles O4: both forms of the address land on CMD, and a word that names a command runs it. -/
theorem stepRunsDecodedCommand : Obligations.StepRunsDecodedCommand := by
  intro s w i rest h
  have hslot : reach s.params 4 (.slot 4) = .slot 4 := reach_slot_word s.params (by decide) (by decide)
  have hbus : reach s.params 4 (.bus (s.params.regBase + 4)) = .slot 4 :=
    reach_bus_word s.params (by decide) (by decide)
  rw [step_write_cmd hslot, step_write_cmd hbus, startCommand_of_ok h]
  exact ⟨rfl, rfl⟩

/-- Settles O5: the eleven words are the encodings, and any other word raises ILLEGAL. -/
theorem illegalWordRaisesIllegal : Obligations.IllegalWordRaisesIllegal := by
  intro s w rest h
  have hillegal : IllegalWord w := illegalWord_of_not_mem h
  rw [step_write_cmd (reach_slot_word s.params (by decide) (by decide)), startCommand_of_illegal hillegal]
  rfl

/-! ## The registers outside a command's row (R89) -/

/-- A register-form command's ranges are empty, so no check of it fails (R104, R105). -/
theorem registerForm_checks_pass {i : Instr} (h : i = .cencr ∨ i = .cdecr) (s : State) :
    firstError (commandChecks i s) = none := by
  rw [commandChecks_pass]
  rcases h with rfl | rfl <;> exact ⟨rfl, .inl rfl, .inl rfl, fun hshare => Nat.lt_irrefl 0 hshare.1⟩

/-- A change `f` of the state that no check and no perform phase sees, and that does not touch STATUS, can be made
before a command or after it. -/
theorem exec_comm {i : Instr} {s t : State} (f : State → State)
    (hchecks : firstError (commandChecks i (f s)) = firstError (commandChecks i s))
    (herror : ∀ c, (f s).raiseError c = f (s.raiseError c)) (hperform : afterCommand i (f s) = f (afterCommand i s))
    (h : exec i s = .next t) : exec i (f s) = .next (f t) := by
  rcases exec_cases h with ⟨c, hc, rfl⟩ | ⟨hpass, rfl⟩
  · rw [exec_of_error (hchecks.trans hc), herror]
  · rw [exec_of_pass (hchecks.trans hpass), hperform]

/-- Settles O36: writing the registers outside a command's row commutes with the command, since its checks and its
perform phase read none of them. -/
theorem staleRegistersHaveNoEffect : Obligations.StaleRegistersHaveNoEffect := by
  intro s t w h n c o k
  refine ⟨fun i hi => ?_, fun i hi => ?_, ?_, fun i hi => ?_⟩
  · rcases hi with rfl | rfl | rfl | rfl | rfl | rfl <;>
      exact exec_comm (fun u => { u with width := w, height := h, ncol := n, cin := c, cout := o, cmd := k }) rfl
        (fun _ => rfl) rfl
  · rcases hi with rfl | rfl <;>
      exact exec_comm (fun u => { u with count := w, ncol := n, cin := c, cout := o, cmd := k }) rfl (fun _ => rfl) rfl
  · exact exec_comm (fun u => { u with width := w, height := h, cin := c, cout := o, cmd := k }) rfl (fun _ => rfl) rfl
  · have hpass := registerForm_checks_pass hi
    rcases hi with rfl | rfl <;>
      exact exec_comm
        (fun u => { u with src := w, dst := h, count := n, width := o, height := k, ncol := c, cmd := w })
        ((hpass _).trans (hpass s).symm) (fun _ => rfl) rfl

end Sys2Proof.Machine

/-! PROOF. The colour converter (spec/40_color.md): the conversions on natural numbers and their laws (R100, R101,
R106), and the four commands' errors, results and frames (R102-R105). -/

namespace Sys2Proof.Machine

/-! ## The conversions -/

/-- expand5 as a sum: the channel, and its top two bits below it (R101). -/
theorem expand5_toNat_sum (v : BitVec 5) : (expand5 v).toNat = 8 * v.toNat + v.toNat / 4 := by
  revert v; decide

/-- The top five bits of a widened channel are the channel (R106 law 1). -/
theorem expand5_toNat_div (v : BitVec 5) : (expand5 v).toNat / 8 = v.toNat := by
  rw [expand5_toNat_sum]
  omega

/-- The low three bits of a byte. -/
theorem low_three_toNat (x : Byte) : (x &&& 7#8).toNat = x.toNat % 8 := by
  rw [BitVec.toNat_and]; exact Nat.and_two_pow_sub_one_eq_mod x.toNat 3

/-- The channels of a decoded Color15 are its fields, each widened (R101). -/
theorem dec24_toNat (c : Half) :
    (dec24 c).r.toNat = expand5Nat (redField c.toNat) ∧ (dec24 c).g.toNat = expand5Nat (greenField c.toNat) ∧
      (dec24 c).b.toNat = expand5Nat (blueField c.toNat) := by
  obtain ⟨hred, hgreen, hblue⟩ := extract_fields c
  rw [← hred, ← hgreen, ← hblue]
  exact ⟨expand5_toNat _, expand5_toNat _, expand5_toNat _⟩

/-- A byte moved to a higher place of a word, within it. -/
theorem toNat_setWidth_shiftLeft (x : Byte) {k : Nat} (hk : k ≤ 24) :
    (x.setWidth 32 <<< k).toNat = x.toNat <<< k := by
  have hlt : x.toNat <<< k < 2 ^ 32 :=
    (Nat.shiftLeft_lt x.isLt).trans_le (Nat.pow_le_pow_right (by decide) (by omega))
  rw [BitVec.toNat_shiftLeft, BitVec.toNat_setWidth_of_le (by decide), Nat.mod_eq_of_lt hlt]

/-- A Color24's word as a sum: its four bytes do not meet (R54). -/
theorem Color24.toWord_eq_sum (c : Color24) :
    c.toWord = BitVec.ofNat 32 (c.a.toNat * 2 ^ 24 + c.b.toNat * 2 ^ 16 + c.g.toNat * 2 ^ 8 + c.r.toNat) := by
  have hr := c.r.isLt; have hg := c.g.isLt; have hb := c.b.isLt
  have hword : c.toWord.toNat = c.a.toNat <<< 24 + (c.b.toNat <<< 16 + (c.g.toNat <<< 8 + c.r.toNat)) := by
    rw [Nat.shiftLeft_add_eq_or_of_lt (i := 24) (by simp only [Nat.shiftLeft_eq]; omega),
      Nat.shiftLeft_add_eq_or_of_lt (i := 16) (by simp only [Nat.shiftLeft_eq]; omega),
      Nat.shiftLeft_add_eq_or_of_lt (i := 8) hr, ← Nat.or_assoc, ← Nat.or_assoc]
    simp only [toWord, BitVec.toNat_or, toNat_setWidth_shiftLeft, Nat.reduceLeDiff,
      BitVec.toNat_setWidth_of_le (show 8 ≤ 32 by decide)]
  simp only [Nat.shiftLeft_eq, ← Nat.add_assoc] at hword
  rw [← hword, BitVec.ofNat_toNat, BitVec.setWidth_eq]

/-- The five bits enc15 keeps of a channel (R100). -/
theorem keptBits_toNat (x : Byte) : ((x >>> 3).setWidth 5).toNat = x.toNat / 8 := by
  have hx := x.isLt
  rw [BitVec.toNat_setWidth, BitVec.toNat_ushiftRight, Nat.shiftRight_eq_div_pow]
  omega

/-- What decoding an encoded colour makes of a channel: the five bits enc15 keeps, widened by expand5. -/
def channelRoundTrip (x : Byte) : Byte := expand5 ((x >>> 3).setWidth 5)

/-- Decoding an encoded colour takes each channel through `channelRoundTrip` and makes it opaque (R100, R101). -/
theorem dec24_enc15 (c : Rgb) :
    dec24 (enc15 c) = ⟨channelRoundTrip c.r, channelRoundTrip c.g, channelRoundTrip c.b, 0xFF⟩ := by
  have hfield (v : BitVec 5) (x : Byte) (h : v.toNat = x.toNat / 8) : v = (x >>> 3).setWidth 5 :=
    BitVec.eq_of_toNat_eq (h.trans (keptBits_toNat x).symm)
  obtain ⟨hred, hgreen, hblue⟩ := extract_fields (enc15 c)
  rw [dec24, hfield _ c.r (hred.trans (keyField_enc15 .r c)), hfield _ c.g (hgreen.trans (keyField_enc15 .g c)),
    hfield _ c.b (hblue.trans (keyField_enc15 .b c))]
  rfl

/-- The five kept bits stay in place and the top three are repeated below them (R106 law 2). -/
theorem channelRoundTrip_eq (x : Byte) : channelRoundTrip x = (x &&& 0xF8#8) ||| (x >>> 5) := by
  have hfits : ((x >>> 3).setWidth 5).setWidth 8 = x >>> 3 := by
    refine BitVec.eq_of_toNat_eq ?_
    rw [BitVec.toNat_setWidth_of_le (by decide), keptBits_toNat, BitVec.toNat_ushiftRight, Nat.shiftRight_eq_div_pow]
  have hkept : (x >>> 3) <<< 3 = x &&& 0xF8#8 := by
    ext k hk
    interval_cases k <;> simp
  rw [channelRoundTrip, expand5, hfits, hkept, ← BitVec.shiftRight_add]

/-- `channelRoundTrip` as a sum. -/
theorem channelRoundTrip_toNat (x : Byte) : (channelRoundTrip x).toNat = 8 * (x.toNat / 8) + x.toNat / 32 := by
  rw [channelRoundTrip, expand5_toNat_sum, keptBits_toNat, Nat.div_div_eq_div_mul]

/-! ## The laws of R106 -/

/-- Settles O11: each widened field divided by 8 is the field, and the three fields make up the low 15 bits. -/
theorem encodeAfterDecode : Obligations.EncodeAfterDecode := by
  intro c
  obtain ⟨hred, hgreen, hblue⟩ := extract_fields c
  have hmask : (c &&& 0x7FFF#16).toNat = c.toNat % 2 ^ 15 := by
    rw [BitVec.toNat_and]; exact Nat.and_two_pow_sub_one_eq_mod c.toNat 15
  refine BitVec.eq_of_toNat_eq ?_
  simp only [enc15_toNat_sum, dec24, expand5_toNat_div, hred, hgreen, hblue, hmask, redField, greenField, blueField]
  omega

/-- Settles O12: each channel goes through `channelRoundTrip`, which on numbers replaces X mod 8 by X / 32. -/
theorem decodeAfterEncode : Obligations.DecodeAfterEncode := by
  intro r g b d hd
  obtain rfl := hd.trans (dec24_enc15 _)
  refine ⟨rfl, fun x y hxy => ?_⟩
  obtain rfl : y = channelRoundTrip x := by
    simp only [List.mem_cons, Prod.mk.injEq, List.not_mem_nil, or_false] at hxy
    rcases hxy with ⟨rfl, rfl⟩ | ⟨rfl, rfl⟩ | ⟨rfl, rfl⟩ <;> rfl
  have hx := x.isLt
  have hback := channelRoundTrip_toNat x
  have hhigh : (x >>> 5).toNat = x.toNat / 32 := Nat.shiftRight_eq_div_pow x.toNat 5
  have hkept : channelRoundTrip x = x ↔ x.toNat % 8 = x.toNat / 32 := by
    rw [← BitVec.toNat_inj, hback]
    omega
  refine ⟨channelRoundTrip_eq x, ?_, by omega, ?_, ?_, ?_⟩
  · rw [low_three_toNat, hhigh]
    omega
  · rw [hkept, ← BitVec.toNat_inj, low_three_toNat, hhigh]
  · rw [hkept]
    refine ⟨fun h => ⟨x.toNat / 32, x.toNat / 8 % 4, by omega, by omega, by omega⟩, fun ⟨t, m, ht, hm, h⟩ => ?_⟩
    have hlow : x.toNat % 8 = t := by omega
    have htop : x.toNat / 32 = t := by omega
    rw [hlow, htop]
  · rw [hkept]
    omega

/-- Settles O13: both conversions are sums of quotients, which do not fall when a channel grows. -/
theorem codecIsMonotone : Obligations.CodecIsMonotone := by
  refine ⟨rfl, rfl, fun u v h => ?_, fun r g b x => ?_⟩
  · rw [expand5_toNat_sum, expand5_toNat_sum]
    omega
  · simp only [enc15_toNat_sum]
    omega

/-! ## The register forms -/

/-- Settles O9: no check of CENCR fails, and COUT is enc15's formula. -/
theorem cencrEncodesCin : Obligations.CencrEncodesCin := by
  refine ⟨decode_eq_ok_iff_eq_encode.2 (by decide), fun s => ?_⟩
  have hcout : commandCout .cencr s = BitVec.ofNat 32 (enc15Nat (s.cin.extractLsb' 0 8).toNat
      (s.cin.extractLsb' 8 8).toNat (s.cin.extractLsb' 16 8).toNat) := by
    rw [commandCout, ← BitVec.ofNat_toNat, enc15_toNat]
    rfl
  rw [exec_of_pass (registerForm_checks_pass (.inl rfl) s), afterCommand, hcout]
  rfl

/-- Settles O10: no check of CDECR fails, and COUT is the sum of the widened fields and the alpha. -/
theorem cdecrDecodesCin : Obligations.CdecrDecodesCin := by
  refine ⟨decode_eq_ok_iff_eq_encode.2 (by decide), fun s c hc => ?_⟩
  have hcout : commandCout .cdecr s = BitVec.ofNat 32 (0xFF * 2 ^ 24 + expand5Nat (blueField c) * 2 ^ 16 +
      expand5Nat (greenField c) * 2 ^ 8 + expand5Nat (redField c)) := by
    obtain ⟨hr, hg, hb⟩ := dec24_toNat (s.cin.extractLsb' 0 16)
    rw [hc, ← hr, ← hg, ← hb, commandCout, Color24.toWord_eq_sum]
    rfl
  rw [exec_of_pass (registerForm_checks_pass (.inr rfl) s), afterCommand, hcout]
  rfl

/-! ## The range errors of a memory command -/

/-- A command whose shape is legal raises RANGE for its source, then RANGE for its destination, then OVERLAP (R205). -/
theorem rangeErrors_of_shape {i : Instr} {s : State} (h : firstError (shapeChecks i s) = none) :
    RangeErrors i s (srcLen i s) (dstLen i s) := by
  have hchecks := firstError_commandChecks i s
  rw [h, Option.orElse_none, firstError_rangeChecks] at hchecks
  refine ⟨fun hs => ?_, fun hs hd => ?_, fun hs hd ho => ?_⟩
  · exact raises_of_error (c := .range) (hchecks.trans (if_pos hs))
  · rw [if_neg (not_not.2 hs), if_pos hd] at hchecks
    exact raises_of_error (c := .range) hchecks
  · rw [if_neg (not_not.2 hs), if_neg (not_not.2 hd), if_pos ho] at hchecks
    exact raises_of_error (c := .overlap) hchecks

/-! ## The array forms -/

/-- A little-endian value whose bytes are among stores to pairwise different addresses reads back (R52, R53). -/
theorem Memory.readLE_storeAll (m : Memory) {cells : List Host.Cell} {a n v : Nat}
    (hn : (cells.map Prod.fst).Nodup) (hsub : leCells a n v ⊆ cells) (hv : v < 2 ^ (8 * n)) :
    (m.storeAll cells).readLE a n = v := by
  have hbytes (k : Nat) (hk : k < n) : (m.storeAll cells).read (a + k) = BitVec.ofNat 8 (v >>> (8 * k)) :=
    Memory.read_storeAll_mem cells m hn (hsub (List.mem_map.2 ⟨k, List.mem_range.2 hk, rfl⟩))
  rw [Memory.readLE_of_bytes hbytes, Nat.mod_eq_of_lt hv]

/-- Entry i of a Color15 array is its two bytes (R55). -/
theorem Memory.color15_toNat (m : Memory) (base i : Nat) :
    (m.color15 base i).toNat = m.readLE (base + 2 * i) 2 := by
  have hlow := (m.read (base + 2 * i)).isLt
  have hhigh := (m.read (base + 2 * i + 1)).isLt
  rw [Memory.color15, BitVec.toNat_ofNat, Memory.readLE_two, Nat.mod_eq_of_lt]
  omega

/-- Settles O7: CENC has no shape check, and the two bytes of each encoded colour are among its stores. -/
theorem cencEncodesArray : Obligations.CencEncodesArray := by
  refine ⟨decode_eq_ok_iff_eq_encode.2 (by decide), fun s => ⟨rangeErrors_of_shape (i := .cenc) rfl, fun hfit => ?_⟩⟩
  refine ⟨_, exec_of_fits (i := .cenc) (by decide) rfl hfit, fun i hi => ?_,
    sameOutside_commandCells (i := .cenc) rfl s.mem⟩
  have hsub : leCells (s.dst.toNat + 2 * i) 2 (enc15 (s.mem.rgb s.src.toNat i)).toNat ⊆ commandCells .cenc s :=
    fun c hc => List.mem_flatMap.2 ⟨i, List.mem_range.2 hi, hc⟩
  have hnodup : ((commandCells .cenc s).map Prod.fst).Nodup :=
    cencCells_addrs s.mem _ _ _ ▸ nodup_addrs _ _
  rw [Memory.readLE_storeAll s.mem hnodup hsub (BitVec.isLt _), enc15_toNat]
  rfl

/-- Settles O8: CDEC has no shape check, and the four bytes of each decoded colour are among its stores. -/
theorem cdecDecodesArray : Obligations.CdecDecodesArray := by
  refine ⟨decode_eq_ok_iff_eq_encode.2 (by decide), fun s => ⟨rangeErrors_of_shape (i := .cdec) rfl, fun hfit => ?_⟩⟩
  refine ⟨_, exec_of_fits (i := .cdec) (by decide) rfl hfit, fun i c hi hc => ?_,
    sameOutside_commandCells (i := .cdec) rfl s.mem⟩
  have hread {x : Host.Cell} (hx : x ∈ (dec24 (s.mem.color15 s.src.toNat i)).cells (s.dst.toNat + 4 * i)) :
      (s.mem.storeAll (commandCells .cdec s)).read x.1 = x.2 :=
    read_afterCommand (i := .cdec) (by decide) rfl (List.mem_flatMap.2 ⟨i, List.mem_range.2 hi, hx⟩)
  obtain ⟨hr, hg, hb⟩ := dec24_toNat (s.mem.color15 s.src.toNat i)
  rw [Memory.color15_toNat, ← hc] at hr hg hb
  obtain ⟨hreadR, hreadG, hreadB, hreadA⟩ : _ ∧ _ ∧ _ ∧ _ := by simpa [Color24.cells] using @hread
  rw [hreadR, hreadG, hreadB, hreadA]
  exact ⟨hr, hg, hb, rfl⟩

end Sys2Proof.Machine

/-! PROOF. The tile transposer (spec/41_transpose.md): the tile map and its inverse (R120, R124), the errors, results and
frames of TTILE and TLIN (R121-R123), and the round trip of the two (R124 law 3). -/

namespace Sys2Proof.Machine

/-! ## The tile map is a bijection -/

/-- Settles O14: the tile index and the position within the tile come apart again by division. -/
theorem tileCoordinates : Obligations.TileCoordinates :=
  fun _ _ ty _ _ _ htx hwx hwy => linearPos_of_tile ty htx hwx hwy

/-- The tiled position of the pixel at column x and row y (R124 law 2). -/
theorem tiledPos_of_pixel {w x : Nat} (y : Nat) (hx : x < w) :
    tiledPos w (x + y * w) = 64 * (y / 8 * (w / 8) + x / 8) + 8 * (y % 8) + x % 8 := by
  have hcol : (x + y * w) % w = x := by rw [Nat.add_mul_mod_self_right, Nat.mod_eq_of_lt hx]
  have hrow : (x + y * w) / w = y := by
    rw [Nat.add_mul_div_right _ _ (by omega), Nat.div_eq_of_lt hx, Nat.zero_add]
  rw [tiledPos, hcol, hrow]

/-- The inverse map undoes the tile map (R124 law 2). -/
theorem tiledPos_linearPos {w : Nat} (hw : w ≠ 0) (hw8 : w % 8 = 0) (t : Nat) : tiledPos w (linearPos w t) = t := by
  have hcol : t / 64 % (w / 8) < w / 8 := Nat.mod_lt _ (by omega)
  have htile : t / 64 / (w / 8) * (w / 8) + t / 64 % (w / 8) = t / 64 := Nat.div_add_mod' _ _
  rw [linearPos, tiledPos_of_pixel _ (by omega),
    show (t / 64 / (w / 8) * 8 + t % 64 / 8) / 8 = t / 64 / (w / 8) by omega,
    show (t / 64 % (w / 8) * 8 + t % 64 % 8) / 8 = t / 64 % (w / 8) by omega, htile]
  omega

/-- Settles O15: both maps stay below W·H, and each undoes the other. -/
theorem linearPosIsBijection : Obligations.LinearPosIsBijection := by
  intro w h hw hw8 hh8 t ht
  have hw0 : w ≠ 0 := by omega
  exact ⟨linearPos_lt hw0 hw8 hh8 ht, tiledPos_lt hw0 hw8 hh8 ht, tiledPos_linearPos hw0 hw8 t,
    linearPos_tiledPos hw0 hw8 t⟩

/-- TLIN stores each byte of its destination range once (R123). -/
theorem nodup_tlinCells_addrs {w : Nat} (hw : w ≠ 0) (hw8 : w % 8 = 0) (m : Memory) (src dst n : Nat) :
    ((tlinCells m src dst w n).map Prod.fst).Nodup := by
  have hinj : Function.Injective (linearPos w) := Function.LeftInverse.injective (tiledPos_linearPos hw hw8)
  rw [tlinCells_addrs]
  exact (List.nodup_range.map hinj).map fun _ _ h => Nat.add_left_cancel h

/-! ## TTILE and TLIN -/

/-- A transposing command whose shape is illegal raises PARAM (R121). -/
theorem raises_param_of_not_tileShape {i : Instr} {s : State} (hi : i = .ttile ∨ i = .tlin) (h : ¬TileShape s) :
    Raises i s 2 := by
  have herror : firstError (tileShapeChecks s) = some .param := by rw [tileShapeChecks_error, if_neg h]
  rcases hi with rfl | rfl <;> exact raises_of_shapeError (c := .param) herror

/-- Settles O16: TTILE's shape checks are R121's, and its cell of tiled position t is read back. -/
theorem ttileTransposes : Obligations.TtileTransposes := by
  refine ⟨decode_eq_ok_iff_eq_encode.2 (by decide), ?_⟩
  rintro s n rfl
  have hpass : TileShape s → firstError (shapeChecks .ttile s) = none := (tileShapeChecks_pass s).2
  refine ⟨raises_param_of_not_tileShape (.inl rfl), fun hshape => rangeErrors_of_shape (hpass hshape),
    fun hshape hfit => ⟨_, exec_of_fits (by decide) (hpass hshape) hfit, fun t ht => ?_,
      sameOutside_commandCells (hpass hshape) s.mem⟩⟩
  exact read_afterCommand (i := .ttile) (by decide) (hpass hshape) (List.mem_map.2 ⟨t, List.mem_range.2 ht, rfl⟩)

/-- Settles O17: TLIN's shape checks are R121's, and its cell of linear position L(W, t) is read back, no other cell
having its address. -/
theorem tlinTransposes : Obligations.TlinTransposes := by
  refine ⟨decode_eq_ok_iff_eq_encode.2 (by decide), ?_⟩
  rintro s n rfl
  have hpass : TileShape s → firstError (shapeChecks .tlin s) = none := (tileShapeChecks_pass s).2
  refine ⟨raises_param_of_not_tileShape (.inr rfl), fun hshape => rangeErrors_of_shape (hpass hshape),
    fun hshape hfit => ⟨_, exec_of_fits (by decide) (hpass hshape) hfit, fun t ht => ?_,
      sameOutside_commandCells (hpass hshape) s.mem⟩⟩
  obtain ⟨hw, hw8, -⟩ := hshape
  exact Memory.read_storeAll_mem (commandCells .tlin s) s.mem (nodup_tlinCells_addrs hw hw8 ..)
    (List.mem_map.2 ⟨t, List.mem_range.2 ht, rfl⟩)

/-! ## The round trip -/

/-- Settles O18: TLIN after TTILE moves the byte at linear position j through the tiled position of j, and TTILE after
TLIN the byte at tiled position j through L(W, j). -/
theorem transposeRoundTrip : Obligations.TransposeRoundTrip := by
  intro s out n first second hn horder hshape hfit hfit'
  obtain ⟨hw, hw8, hh8⟩ := hshape
  rcases horder with ⟨rfl, rfl⟩ | ⟨rfl, rfl⟩
  · obtain ⟨m, hexec, htile, -⟩ := (ttileTransposes.2 s n hn).2.2 ⟨hw, hw8, hh8⟩ hfit
    obtain ⟨m', hexec', hlin, -⟩ :=
      (tlinTransposes.2 { s with mem := m, status := ⟨true, false, 0⟩, src := s.dst, dst := out } n hn).2.2
        ⟨hw, hw8, hh8⟩ hfit'
    refine ⟨_, _, hexec, hexec', rfl, fun j hj => ?_⟩
    have hpos : linearPos s.width.toNat (tiledPos s.width.toNat j) = j := linearPos_tiledPos hw hw8 j
    have hlt : tiledPos s.width.toNat j < n := hn ▸ tiledPos_lt hw hw8 hh8 (hn ▸ hj)
    calc m'.read (out.toNat + j)
        = m'.read (out.toNat + linearPos s.width.toNat (tiledPos s.width.toNat j)) := by rw [hpos]
      _ = m.read (s.dst.toNat + tiledPos s.width.toNat j) := hlin _ hlt
      _ = s.mem.read (s.src.toNat + linearPos s.width.toNat (tiledPos s.width.toNat j)) := htile _ hlt
      _ = s.mem.read (s.src.toNat + j) := by rw [hpos]
  · obtain ⟨m, hexec, hlin, -⟩ := (tlinTransposes.2 s n hn).2.2 ⟨hw, hw8, hh8⟩ hfit
    obtain ⟨m', hexec', htile, -⟩ :=
      (ttileTransposes.2 { s with mem := m, status := ⟨true, false, 0⟩, src := s.dst, dst := out } n hn).2.2
        ⟨hw, hw8, hh8⟩ hfit'
    refine ⟨_, _, hexec, hexec', rfl, fun j hj => ?_⟩
    calc m'.read (out.toNat + j)
        = m.read (s.dst.toNat + linearPos s.width.toNat j) := htile j hj
      _ = s.mem.read (s.src.toNat + j) := hlin j hj

end Sys2Proof.Machine

/-! PROOF. The index packer (spec/42_pack.md): the errors, results and frames of PACK4, UNPK4, PACK8 and UNPK8
(R140-R143), and what the two forms of a pair make of each other's output (R144). -/

namespace Sys2Proof.Machine

/-! ## A memory command that performs -/

/-- A memory command whose checks pass (TLIN apart) ends with DONE, its cells read back, and every byte outside its
destination range is as before (R50, R204). -/
theorem exec_stores_cells {i : Instr} {s : State} (hm : TouchesMemory i) (hi : i ≠ .tlin)
    (hshape : firstError (shapeChecks i s) = none) (hfit : RangesFit s (srcLen i s) (dstLen i s)) :
    ∃ m, exec i s = .next { s with mem := m, status := Status.success } ∧
      (∀ c ∈ commandCells i s, m.read c.1 = c.2) ∧ SameOutside s.mem m s.dst.toNat (dstLen i s) :=
  ⟨_, exec_of_fits hm hshape hfit, fun _ hc => read_afterCommand hi hshape hc, sameOutside_commandCells hshape s.mem⟩

/-! ## PACK4 and UNPK4 -/

/-- PARAM is the first error of a 4-bit command whose COUNT is odd (R140, R141). -/
theorem raises_param_of_odd_count {i : Instr} {s : State} (hi : i = .pack4 ∨ i = .unpk4)
    (h : s.count.toNat % 2 ≠ 0) : Raises i s 2 := by
  have herror : firstError (evenCountChecks s) = some .param := by rw [evenCountChecks_error, if_neg h]
  rcases hi with rfl | rfl <;> exact raises_of_shapeError (c := .param) herror

/-- The high nibble of a byte (R141). -/
theorem high_nibble_toNat (x : Byte) : (x >>> 4).toNat = x.toNat / 16 := Nat.shiftRight_eq_div_pow x.toNat 4

/-- Settles O19: PACK4's shape check is the parity of COUNT, and its cell of each pair is read back. -/
theorem packFourPacksPairs : Obligations.PackFourPacksPairs := by
  refine ⟨decode_eq_ok_iff_eq_encode.2 (by decide), ?_⟩
  rintro s n rfl
  have hpass : s.count.toNat % 2 = 0 → firstError (shapeChecks .pack4 s) = none := (evenCountChecks_pass s).2
  refine ⟨raises_param_of_odd_count (.inl rfl), fun heven => rangeErrors_of_shape (hpass heven), fun heven hfit => ?_⟩
  obtain ⟨m, hexec, hcells, hframe⟩ := exec_stores_cells (by decide) (by decide) (hpass heven) hfit
  refine ⟨m, hexec, fun i hi => ?_, hframe⟩
  rw [hcells _ (List.mem_map.2 ⟨i, List.mem_range.2 hi, rfl⟩), packNibbles_toNat]

/-- Settles O20: UNPK4's shape check is the parity of COUNT, and both cells of each byte are read back. -/
theorem unpackFourSplitsBytes : Obligations.UnpackFourSplitsBytes := by
  refine ⟨decode_eq_ok_iff_eq_encode.2 (by decide), ?_⟩
  rintro s n rfl
  have hpass : s.count.toNat % 2 = 0 → firstError (shapeChecks .unpk4 s) = none := (evenCountChecks_pass s).2
  refine ⟨raises_param_of_odd_count (.inr rfl), fun heven => rangeErrors_of_shape (hpass heven), fun heven hfit => ?_⟩
  obtain ⟨m, hexec, hcells, hframe⟩ := exec_stores_cells (by decide) (by decide) (hpass heven) hfit
  refine ⟨m, hexec, fun i hi => ?_, hframe⟩
  have hi' := List.mem_range.2 hi
  rw [hcells _ (List.mem_flatMap.2 ⟨i, hi', .head _⟩), hcells _ (List.mem_flatMap.2 ⟨i, hi', .tail _ (.head _)⟩)]
  exact ⟨low_nibble_toNat _, high_nibble_toNat _⟩

/-! ## PACK8 and UNPK8 -/

/-- What the 8-bit commands have in common: no shape check, and ranges of COUNT bytes (R142, R143). -/
theorem eightBit_operands {i : Instr} (hi : i = .pack8 ∨ i = .unpk8) (s : State) :
    (TouchesMemory i ∧ i ≠ .tlin) ∧ shapeChecks i s = [] ∧ srcLen i s = s.count.toNat ∧
      dstLen i s = s.count.toNat := by
  rcases hi with rfl | rfl <;> exact ⟨by decide, rfl, rfl, rfl⟩

/-- An 8-bit command stores each source byte at its own offset; PACK8's mask keeps all eight bits (R142, R143). -/
theorem copied_byte_mem_commandCells {i : Instr} (hi : i = .pack8 ∨ i = .unpk8) {s : State} {j : Nat}
    (hj : j < s.count.toNat) :
    (s.dst.toNat + j, s.mem.read (s.src.toNat + j)) ∈ commandCells i s := by
  have hmask (x : Byte) : x &&& 0xFF#8 = x := BitVec.and_allOnes
  rcases hi with rfl | rfl
  · exact List.mem_map.2 ⟨j, List.mem_range.2 hj, by rw [hmask]⟩
  · exact List.mem_map.2 ⟨j, List.mem_range.2 hj, rfl⟩

/-- Settles O21: the 8-bit commands have no shape check, and each copied byte is among their cells. -/
theorem eightBitFormsCopy : Obligations.EightBitFormsCopy := by
  refine ⟨decode_eq_ok_iff_eq_encode.2 (by decide), decode_eq_ok_iff_eq_encode.2 (by decide), fun s i hi => ?_⟩
  obtain ⟨⟨hm, htlin⟩, hchecks, hsrc, hdst⟩ := eightBit_operands hi s
  have hshape : firstError (shapeChecks i s) = none := congrArg firstError hchecks
  have herrors := rangeErrors_of_shape hshape
  have hperforms := exec_stores_cells hm htlin hshape
  rw [hsrc, hdst] at herrors hperforms
  refine ⟨herrors, fun hfit => ?_⟩
  obtain ⟨m, hexec, hcells, hframe⟩ := hperforms hfit
  exact ⟨m, hexec, fun j hj => hcells _ (copied_byte_mem_commandCells hi hj), hframe⟩

/-! ## The round trips (R144) -/

/-- Settles O22: the low nibble of a packed byte is the earlier index mod 16, its high nibble the later one. -/
theorem unpackAfterPackMasks : Obligations.UnpackAfterPackMasks := by
  intro s out n hn heven hfit hfit'
  obtain ⟨m, hexec, hpack, -⟩ := (packFourPacksPairs.2 s n hn).2.2 heven hfit
  obtain ⟨m', hexec', hunpack, -⟩ :=
    (unpackFourSplitsBytes.2 { s with mem := m, status := ⟨true, false, 0⟩, src := s.dst, dst := out } n hn).2.2
      heven hfit'
  refine ⟨_, _, hexec, hexec', rfl, fun j hj => ?_⟩
  have hmod : (m'.read (out.toNat + j)).toNat = (s.mem.read (s.src.toNat + j)).toNat % 16 := by
    obtain ⟨i, rfl | rfl⟩ := Nat.even_or_odd' j
    · have hbyte := hpack i (by omega)
      calc (m'.read (out.toNat + 2 * i)).toNat
          = (m.read (s.dst.toNat + i)).toNat % 16 := (hunpack i (by omega)).1
        _ = (s.mem.read (s.src.toNat + 2 * i)).toNat % 16 := by omega
    · have hbyte := hpack i (by omega)
      calc (m'.read (out.toNat + 2 * i + 1)).toNat
          = (m.read (s.dst.toNat + i)).toNat / 16 := (hunpack i (by omega)).2
        _ = (s.mem.read (s.src.toNat + 2 * i + 1)).toNat % 16 := by omega
  refine ⟨BitVec.eq_of_toNat_eq ?_, fun hlt => BitVec.eq_of_toNat_eq ?_⟩
  · rw [hmod, low_nibble_toNat]
  · rw [hmod, Nat.mod_eq_of_lt hlt]

/-- Settles O23: the two nibbles of a byte make it up again, and the copy of a copy is the source. -/
theorem packRoundTrips : Obligations.PackRoundTrips := by
  intro s out n hn
  refine ⟨fun heven hfit hfit' => ?_, fun hfit hfit' => ?_⟩
  · obtain ⟨m, hexec, hunpack, -⟩ := (unpackFourSplitsBytes.2 s n hn).2.2 heven hfit
    obtain ⟨m', hexec', hpack, -⟩ :=
      (packFourPacksPairs.2 { s with mem := m, status := ⟨true, false, 0⟩, src := s.dst, dst := out } n hn).2.2
        heven hfit'
    refine ⟨_, _, hexec, hexec', rfl, fun j hj => BitVec.eq_of_toNat_eq ?_⟩
    have hbyte := (s.mem.read (s.src.toNat + j)).isLt
    obtain ⟨hlow, hhigh⟩ := hunpack j hj
    calc (m'.read (out.toNat + j)).toNat
        = (m.read (s.dst.toNat + 2 * j)).toNat % 16 + (m.read (s.dst.toNat + 2 * j + 1)).toNat % 16 * 16 := hpack j hj
      _ = (s.mem.read (s.src.toNat + j)).toNat := by omega
  · subst hn
    obtain ⟨-, -, hcopies⟩ := eightBitFormsCopy
    obtain ⟨m, hexec, hpack, -⟩ := (hcopies s .pack8 (.inl rfl)).2 hfit
    obtain ⟨m', hexec', hunpack, -⟩ :=
      (hcopies { s with mem := m, status := ⟨true, false, 0⟩, src := s.dst, dst := out } .unpk8 (.inr rfl)).2 hfit'
    exact ⟨_, _, hexec, hexec', rfl, fun j hj => (hunpack j hj).trans (hpack j hj)⟩

end Sys2Proof.Machine

/-! PROOF. The palette quantizer (spec/43_quant.md): the ranges and the key channel (R162, R163), the stable sort
(R164), the bucket positions (R165, R168 law 2), QUANT's errors, result and frame (R160-R167), and what its palette
keeps (R168 law 3) and does not read (R161). -/

namespace Sys2Proof.Machine

/-! ## The ranges and the key channel -/

/-- `channelRange` is the range of R162 on a sequence that is not empty. -/
theorem isRange_channelRange (k : Channel) {cs : List Rgb} (h : cs ≠ []) : IsRange k cs (channelRange k cs) := by
  obtain ⟨hmin, lo, hlo, hlo_eq⟩ := channelMin_spec k h
  obtain ⟨hmax, hi, hhi, hhi_eq⟩ := channelMax_spec k h
  refine ⟨lo, hlo, hi, hhi, fun c hc => ⟨?_, ?_⟩, by rw [channelRange, hlo_eq, hhi_eq]⟩
  · rw [← hlo_eq]; exact hmin c hc
  · rw [← hhi_eq]; exact hmax c hc

/-- A channel has one range over a sequence (R162). -/
theorem IsRange.unique {k : Channel} {cs : List Rgb} {m n : Nat} (hm : IsRange k cs m) (hn : IsRange k cs n) :
    m = n := by
  obtain ⟨lo, hlo, hi, hhi, hbounds, rfl⟩ := hm
  obtain ⟨lo', hlo', hi', hhi', hbounds', rfl⟩ := hn
  have hlow := Nat.le_antisymm (hbounds lo' hlo').1 (hbounds' lo hlo).1
  have hhigh := Nat.le_antisymm (hbounds' hi hhi).2 (hbounds hi' hhi').2
  rw [hlow, hhigh]

theorem IsRange.eq_channelRange {k : Channel} {cs : List Rgb} {n : Nat} (h : IsRange k cs n) :
    channelRange k cs = n := by
  have hne : cs ≠ [] := by
    obtain ⟨lo, hlo, -⟩ := h
    exact List.ne_nil_of_mem hlo
  exact (isRange_channelRange k hne).unique h

/-- Settles O24: each of the three ranges is the model's `channelRange` of its channel. -/
theorem keyChannelHasLargestRange : Obligations.KeyChannelHasLargestRange := by
  intro cs rr rg rb hr hg hb
  rw [keyChannel, hr.eq_channelRange, hg.eq_channelRange, hb.eq_channelRange]

/-! ## The stable sort -/

/-- `a` may stand before `b` in a stable ascending sort: its key is smaller, or the keys are equal and `a` comes
earlier in the input (R164). -/
def StablyBefore {α : Type} (key : α → Nat) (earlier : α → α → Prop) (a b : α) : Prop :=
  key a < key b ∨ key a = key b ∧ earlier a b

section StableSort

variable {α : Type} {key : α → Nat} {earlier : α → α → Prop}

theorem StablyBefore.key_le {a b : α} (h : StablyBefore key earlier a b) : key a ≤ key b :=
  h.elim Nat.le_of_lt fun h => h.1.le

/-- Inserting an element that is earlier than all of a stably sorted list keeps it stably sorted. -/
theorem pairwise_stablyBefore_orderedInsert {a : α} {l : List α} (hl : l.Pairwise (StablyBefore key earlier))
    (ha : ∀ b ∈ l, earlier a b) :
    (l.orderedInsert (fun x y => key x ≤ key y) a).Pairwise (StablyBefore key earlier) := by
  induction l with
  | nil => exact List.pairwise_singleton _ a
  | cons b l ih =>
    obtain ⟨hb, hl'⟩ := List.pairwise_cons.1 hl
    by_cases hab : key a ≤ key b
    · rw [List.orderedInsert_cons_of_le (fun x y => key x ≤ key y) l hab]
      refine List.pairwise_cons.2 ⟨fun c hc => ?_, hl⟩
      have hbc : key b ≤ key c := by
        rcases List.mem_cons.1 hc with rfl | hc
        · exact le_rfl
        · exact (hb c hc).key_le
      exact (hab.trans hbc).lt_or_eq.imp_right fun he => ⟨he, ha c hc⟩
    · rw [List.orderedInsert_of_not_le (fun x y => key x ≤ key y) l hab]
      refine List.pairwise_cons.2 ⟨fun c hc => ?_, ih hl' fun c hc => ha c (List.mem_cons_of_mem b hc)⟩
      rcases (List.mem_orderedInsert _).1 hc with rfl | hc
      · exact .inl (Nat.lt_of_not_le hab)
      · exact hb c hc

/-- Insertion sort is stable: it ascends by the key and keeps equal keys in input order (R164). -/
theorem pairwise_stablyBefore_insertionSort {l : List α} (h : l.Pairwise earlier) :
    (l.insertionSort fun x y => key x ≤ key y).Pairwise (StablyBefore key earlier) := by
  induction l with
  | nil => exact List.Pairwise.nil
  | cons a l ih =>
    obtain ⟨ha, hl⟩ := List.pairwise_cons.1 h
    exact pairwise_stablyBefore_orderedInsert (ih hl) fun b hb => ha b ((List.mem_insertionSort _).1 hb)

end StableSort

/-- The sorted sequence ascends by the key (R164). -/
theorem sortByKey_ascends (k : Channel) (cs : List Rgb) :
    (sortByKey k cs).Pairwise fun x y => x.channel k ≤ y.channel k :=
  (pairwise_stablyBefore_insertionSort (earlier := fun _ _ => True) (List.pairwise_of_forall fun _ _ => trivial)).imp
    fun h => h.key_le

/-- The colour at a position of a sequence; black past its end. -/
def colourAt (cs : List Rgb) (p : Nat) : Rgb := cs.getD p ⟨0, 0, 0⟩

theorem getElem?_eq_colourAt {cs : List Rgb} {p : Nat} (h : p < cs.length) : cs[p]? = some (colourAt cs p) := by
  rw [colourAt, List.getD_eq_getElem _ _ h, List.getElem?_eq_getElem h]

theorem map_colourAt_range (cs : List Rgb) : (List.range cs.length).map (colourAt cs) = cs :=
  List.ext_getElem (by simp) fun p _ hp => by simp [colourAt, hp]

/-- Position `p` stands before position `q` in the stable order of a sequence by channel `k` (R164). -/
def PositionBefore (k : Channel) (cs : List Rgb) : Nat → Nat → Prop :=
  StablyBefore (fun p => (colourAt cs p).channel k) (· < ·)

theorem PositionBefore.antisymm {k : Channel} {cs : List Rgb} {p q : Nat} (h : PositionBefore k cs p q)
    (h' : PositionBefore k cs q p) : p = q := by
  unfold PositionBefore StablyBefore at h h'
  omega

/-- The positions of a sequence in its stable order by channel `k` (R164). -/
def sortedPositions (k : Channel) (cs : List Rgb) : List Nat :=
  (List.range cs.length).insertionSort fun p q => (colourAt cs p).channel k ≤ (colourAt cs q).channel k

theorem sortedPositions_perm (k : Channel) (cs : List Rgb) : (sortedPositions k cs).Perm (List.range cs.length) :=
  List.perm_insertionSort _ _

theorem sortedPositions_pairwise (k : Channel) (cs : List Rgb) :
    (sortedPositions k cs).Pairwise (PositionBefore k cs) :=
  pairwise_stablyBefore_insertionSort List.pairwise_lt_range

/-- The model's sort moves the colours as `sortedPositions` moves their positions. -/
theorem sortByKey_eq_map_sortedPositions (k : Channel) (cs : List Rgb) :
    sortByKey k cs = (sortedPositions k cs).map (colourAt cs) := by
  rw [sortedPositions, List.map_insertionSort _ (fun x y : Rgb => x.channel k ≤ y.channel k) _ _ fun _ _ _ _ => Iff.rfl,
    map_colourAt_range, sortByKey]

/-- R164's formal sentence for positions that exist: the permutation is ordered by `PositionBefore`. -/
theorem stablySorted_iff (k : Channel) (cs sorted : List Rgb) :
    StablySorted k cs sorted ↔ ∃ pi : List Nat, pi.Perm (List.range cs.length) ∧ sorted = pi.map (colourAt cs) ∧
      pi.Pairwise (PositionBefore k cs) := by
  refine exists_congr fun pi => and_congr_right fun hperm => ?_
  have hget (p : Nat) (hp : p ∈ pi) : cs[p]? = some (colourAt cs p) :=
    getElem?_eq_colourAt (List.mem_range.1 (hperm.mem_iff.1 hp))
  refine and_congr ?_ (List.Pairwise.iff_of_mem fun {p q} hp hq => ?_)
  · have hmap : pi.map (fun p => cs[p]?) = (pi.map (colourAt cs)).map some := by
      rw [List.map_map]
      exact List.map_congr_left hget
    rw [hmap, (List.map_injective_iff.2 (Option.some_injective Rgb)).eq_iff]
  · simp only [hget p hp, hget q hq, Option.some.injEq]
    exact ⟨fun h => h _ _ rfl rfl, by rintro h _ _ rfl rfl; exact h⟩

/-- Settles O25: one permutation of the positions is ordered by `PositionBefore`, and the model's sort applies it. -/
theorem sortIsStable : Obligations.SortIsStable := by
  intro k cs sorted
  rw [stablySorted_iff, sortByKey_eq_map_sortedPositions]
  constructor
  · rintro ⟨pi, hperm, rfl, hpi⟩
    rw [(hperm.trans (sortedPositions_perm k cs).symm).eq_of_pairwise (fun _ _ _ _ => PositionBefore.antisymm) hpi
      (sortedPositions_pairwise k cs)]
  · rintro rfl
    exact ⟨_, sortedPositions_perm k cs, rfl, sortedPositions_pairwise k cs⟩

/-! ## The bucket positions -/

/-- Buckets that are not empty have their representatives in order (R165, R168 law 2). -/
theorem repIndex_lt_repIndex {b j k : Nat} (hb : 0 < b) (h : j < k) : repIndex b j < repIndex b k :=
  Nat.add_lt_add_right (Nat.mul_lt_mul_of_pos_right h hb) _

/-- Settles O27: M ≥ N makes the buckets non-empty, and the last bucket ends inside the sequence. -/
theorem representativesAreDistinct : Obligations.RepresentativesAreDistinct :=
  fun _ _ _ _ hn hnm hjk hk => ⟨repIndex_lt_repIndex (Nat.div_pos hnm hn) hjk, repIndex_lt hnm hk⟩

/-! ## QUANT -/

/-- The colours QUANT reads in a state (R161). -/
def quantColours (s : State) : List Rgb := quantInput s.mem s.src.toNat s.count.toNat

/-- The channel QUANT sorts by in a state (R163). -/
def quantKey (s : State) : Channel := keyChannel (quantColours s)

@[simp] theorem quantColours_length (s : State) : (quantColours s).length = s.count.toNat := quantInput_length ..

theorem quantColours_ne_nil {s : State} (h : QuantShape s) : quantColours s ≠ [] := by
  obtain ⟨⟨hncol, -⟩, hcount, -⟩ := h
  rw [← List.length_pos_iff, quantColours_length]
  omega

theorem quantColours_getElem? {s : State} {i : Nat} (h : i < s.count.toNat) :
    (quantColours s)[i]? = some (s.mem.rgb s.src.toNat i) := by
  rw [quantColours, quantInput, List.getElem?_map, List.getElem?_range h, Option.map_some]

/-- A QUANT that performs stores as entry j the encoding of bucket j's representative (R165-R167). -/
theorem quant_entry {s : State} (hshape : QuantShape s) {j : Nat} (hj : j < s.ncol.toNat) :
    ∃ c, (sortByKey (quantKey s) (quantColours s))[repIndex (s.count.toNat / s.ncol.toNat) j]? = some c ∧
      (afterCommand .quant s).mem.readLE (s.dst.toNat + 2 * j) 2 = (enc15 c).toNat := by
  obtain ⟨-, hcount, -⟩ := hshape
  obtain ⟨c, hc, hentry⟩ :=
    reducePalette_getElem? (cs := quantColours s) (by rwa [quantColours_length]) hj
  rw [quantColours_length] at hc
  have hnodup : ((commandCells .quant s).map Prod.fst).Nodup :=
    quantCells_addrs s.mem _ _ _ _ ▸ nodup_addrs _ _
  exact ⟨c, hc, Memory.readLE_storeAll s.mem hnodup (mem_paletteCells hentry) (BitVec.isLt _)⟩

/-- QUANT's shape errors in order: PARAM, QCOUNT, CAPACITY (R160, R205). -/
theorem quant_shapeErrors (s : State) :
    (¬NcolLegal s → Raises .quant s 2) ∧
    (NcolLegal s → s.count.toNat < s.ncol.toNat → Raises .quant s 3) ∧
    (NcolLegal s → s.ncol.toNat ≤ s.count.toNat → s.params.qmax < s.count.toNat → Raises .quant s 4) := by
  have herror := quantShapeChecks_error s
  refine ⟨fun hn => ?_, fun hn hlt => ?_, fun hn hle hcap => ?_⟩
  · rw [if_pos hn] at herror
    exact raises_of_shapeError (c := .param) herror
  · rw [if_neg (not_not.2 hn), if_pos hlt] at herror
    exact raises_of_shapeError (c := .qcount) herror
  · rw [if_neg (not_not.2 hn), if_neg hle.not_gt, if_pos hcap] at herror
    exact raises_of_shapeError (c := .capacity) herror

/-- Settles O26: the shape errors are `quant_shapeErrors`, and the palette's entries are `quant_entry`. -/
theorem quantReducesPalette : Obligations.QuantReducesPalette := by
  refine ⟨decode_eq_ok_iff_eq_encode.2 (by decide), ?_⟩
  rintro s m n rfl rfl
  have hpass : QuantShape s → firstError (shapeChecks .quant s) = none := (quantShapeChecks_pass s).2
  obtain ⟨hparam, hqcount, hcapacity⟩ := quant_shapeErrors s
  refine ⟨hparam, hqcount, hcapacity, fun hshape => rangeErrors_of_shape (hpass hshape), fun hshape hfit => ?_⟩
  have hrange (k : Channel) := isRange_channelRange k (quantColours_ne_nil hshape)
  refine ⟨_, quantColours s, _, quantKey s, _, _, _, exec_of_fits (by decide) (hpass hshape) hfit,
    quantColours_length s, fun i hi => quantColours_getElem? hi, hrange .r, hrange .g, hrange .b, rfl,
    (sortIsStable _ _ _).2 rfl, fun j hj => ?_, sameOutside_commandCells (hpass hshape) s.mem⟩
  obtain ⟨c, hc, hentry⟩ := quant_entry hshape hj
  exact ⟨c, hc, hentry.trans (enc15_toNat c)⟩

/-- Settles O28: the representatives ascend by the key in the sorted sequence, and the field is the key without its low
three bits. -/
theorem paletteAscendsInKey : Obligations.PaletteAscendsInKey := by
  intro s t j k h hdone hjk hk
  obtain ⟨hpass, rfl⟩ := exec_done h hdone
  have hshape : QuantShape s := (quantShapeChecks_pass s).1 ((commandChecks_pass .quant s).1 hpass).1
  obtain ⟨c, hc, hentry⟩ := quant_entry hshape (hjk.trans hk)
  obtain ⟨d, hd, hentry'⟩ := quant_entry hshape hk
  obtain ⟨⟨hncol, -⟩, hcount, -⟩ := hshape
  have hpos := repIndex_lt_repIndex (Nat.div_pos hcount hncol) hjk
  obtain ⟨hjlt, rfl⟩ := List.getElem?_eq_some_iff.1 hc
  obtain ⟨hklt, rfl⟩ := List.getElem?_eq_some_iff.1 hd
  rw [hentry, hentry', keyField_enc15, keyField_enc15]
  exact Nat.div_le_div_right (List.pairwise_iff_getElem.1 (sortByKey_ascends _ _) _ _ hjlt hklt hpos)

/-- QUANT's stores depend on the R, G and B bytes of its input alone (R161). -/
theorem quantCells_congr {m m' : Memory} {base n : Nat}
    (h : ∀ i k, i < n → k < 3 → m.read (base + 4 * i + k) = m'.read (base + 4 * i + k)) (dst ncol : Nat) :
    quantCells m base dst n ncol = quantCells m' base dst n ncol := by
  have hinput : quantInput m base n = quantInput m' base n := by
    refine List.map_congr_left fun i hi => ?_
    have hchannel (k : Nat) (hk : k < 3) := h i k (List.mem_range.1 hi) hk
    unfold Memory.rgb
    congr 1
    · exact hchannel 0 (by decide)
    · exact hchannel 1 (by decide)
    · exact hchannel 2 (by decide)
  rw [quantCells, quantCells, hinput]

/-- Settles O29: the checks do not read the memory, and the stores of a QUANT that performs depend on the R, G and B
bytes alone and cover its whole destination range. -/
theorem quantIgnoresAlpha : Obligations.QuantIgnoresAlpha := by
  intro s m h
  have hchecks := congrArg firstError (commandChecks_mem .quant s m)
  cases hc : firstError (commandChecks .quant s) with
  | some c => exact ⟨_, _, exec_of_error hc, exec_of_error (hchecks.trans hc), rfl, nofun⟩
  | none =>
    obtain ⟨hshape, -⟩ := (commandChecks_pass .quant s).1 hc
    have hcells : commandCells .quant { s with mem := m } = commandCells .quant s := quantCells_congr h _ _
    refine ⟨_, _, exec_of_pass hc, exec_of_pass (hchecks.trans hc), rfl, fun _ j hj => ?_⟩
    rw [mem_afterCommand, mem_afterCommand, hcells]
    refine Memory.read_storeAll_agree _ _ _ ((mem_commandCells_addrs hshape _).2 ⟨Nat.le_add_right _ _, ?_⟩)
    exact Nat.add_lt_add_left hj _

end Sys2Proof.Machine

/-! PROOF. The errors of a command (spec/60_exceptions.md): the commands that raise each code (R201), what an error
leaves unchanged (R203), the check that is reported (R205), and the step of an idle block (R216). -/

namespace Sys2Proof.Machine

/-! ## Which command raises which code (R201) -/

/-- The column "raised by" of R201, for an error that exec ends with: ILLEGAL is the decoder's alone. -/
def ErrCode.RaisedBy (i : Instr) : ErrCode → Prop
  | .illegal => False
  | .param => i = .ttile ∨ i = .tlin ∨ i = .pack4 ∨ i = .unpk4 ∨ i = .quant
  | .qcount => i = .quant
  | .capacity => i = .quant
  | .range => TouchesMemory i
  | .overlap => TouchesMemory i

theorem shapeChecks_raisedBy (i : Instr) (s : State) : ∀ d ∈ shapeChecks i s, d.code.RaisedBy i := by
  cases i <;> simp [shapeChecks, tileShapeChecks, evenCountChecks, quantShapeChecks, ErrCode.RaisedBy]

theorem rangeChecks_raisedBy {i : Instr} (hm : TouchesMemory i) (p : Params) (src ls dst ld : Nat) :
    ∀ d ∈ rangeChecks p src ls dst ld, d.code.RaisedBy i := by
  simpa [rangeChecks, ErrCode.RaisedBy] using hm

/-- The error of a command's check phase is one R201 lets it raise: a shape check's, or a range check's of a command
that has ranges. -/
theorem firstError_raisedBy {i : Instr} {s : State} {c : ErrCode} (h : firstError (commandChecks i s) = some c) :
    c.RaisedBy i := by
  have hm : TouchesMemory i := by
    refine not_or.1 fun hi => ?_
    rw [registerForm_checks_pass hi] at h
    cases h
  obtain ⟨d, hd, -, rfl⟩ := firstError_some h
  rcases List.mem_append.1 hd with hshape | hrange
  · exact shapeChecks_raisedBy i s d hshape
  · exact rangeChecks_raisedBy hm _ _ _ _ _ d hrange

/-- What the number of a raised error says of the command that raised it. -/
theorem ErrCode.code_of_raisedBy {i : Instr} {c : ErrCode} (h : c.RaisedBy i) :
    (c.code.toNat ≤ 6 ∧ c.code ≠ 1 ∧ c.code ≠ 0) ∧
      (c.code = 2 → i = .ttile ∨ i = .tlin ∨ i = .pack4 ∨ i = .unpk4 ∨ i = .quant) ∧
      (c.code = 3 ∨ c.code = 4 → i = .quant) ∧ (c.code = 5 ∨ c.code = 6 → TouchesMemory i) := by
  cases c with
  | illegal => exact h.elim
  | param => exact ⟨by decide, fun _ => h, by simp [code], by simp [code]⟩
  | qcount => exact ⟨by decide, by simp [code], fun _ => h, by simp [code]⟩
  | capacity => exact ⟨by decide, by simp [code], fun _ => h, by simp [code]⟩
  | range => exact ⟨by decide, by simp [code], by simp [code], fun _ => h⟩
  | overlap => exact ⟨by decide, by simp [code], by simp [code], fun _ => h⟩

/-- Settles O33: an error is one its command can raise, and the success has ERRCODE 0. -/
theorem errorCodesByCommand : Obligations.ErrorCodesByCommand := by
  intro i s t h
  rcases exec_cases h with ⟨c, hc, rfl⟩ | ⟨-, rfl⟩
  · obtain ⟨⟨hle, hillegal, hzero⟩, hparam, hquant, hranges⟩ := ErrCode.code_of_raisedBy (firstError_raisedBy hc)
    exact ⟨hle, hillegal, iff_of_false hzero nofun, hparam, hquant, hranges⟩
  · simp [afterCommand, Status.success]

/-! ## What an error changes (R203) -/

/-- Settles O32: a command that ends with ERR raised an error, and raising it writes STATUS alone. -/
theorem errorsArePrecise : Obligations.ErrorsArePrecise := by
  intro i s t h herr
  rcases exec_cases h with ⟨c, -, rfl⟩ | ⟨-, rfl⟩
  · exact ⟨rfl, rfl⟩
  · cases herr

/-! ## Which of several failing checks is reported (R205) -/

/-- The first failing check of a list whose codes ascend is a failing check of the lowest code. -/
theorem firstError_lowest {cs : List Check} (hs : cs.Pairwise fun a b => a.code.code.toNat ≤ b.code.code.toNat)
    {d : Check} (hd : d ∈ cs) (hf : d.fails = true) :
    ∃ e ∈ cs, e.fails = true ∧ firstError cs = some e.code ∧ e.code.code.toNat ≤ d.code.code.toNat := by
  induction cs with
  | nil => cases hd
  | cons a rest ih =>
    obtain ⟨ha, hrest⟩ := List.pairwise_cons.1 hs
    by_cases hfa : a.fails = true
    · refine ⟨a, List.mem_cons_self, hfa, if_pos hfa, ?_⟩
      rcases List.mem_cons.1 hd with rfl | hd
      · exact Nat.le_refl _
      · exact ha d hd
    · have hmem : d ∈ rest := (List.mem_cons.1 hd).resolve_left fun he => hfa (he ▸ hf)
      obtain ⟨e, he, hfe, hfirst, hle⟩ := ih hrest hmem
      exact ⟨e, List.mem_cons_of_mem _ he, hfe, (if_neg hfa).trans hfirst, hle⟩

/-- Every command makes its checks in the order of their codes (R205). -/
theorem commandChecks_ascend (i : Instr) (s : State) :
    (commandChecks i s).Pairwise fun a b => a.code.code.toNat ≤ b.code.code.toNat := by
  cases i <;>
    simp [commandChecks, shapeChecks, tileShapeChecks, evenCountChecks, quantShapeChecks, rangeChecks, ErrCode.code]

/-- Settles O34: the checks ascend by code, so the first one that fails has the lowest code of those that do. -/
theorem lowestCodeIsReported : Obligations.LowestCodeIsReported := by
  intro i s d hd hf
  obtain ⟨e, he, hfe, hfirst, hle⟩ := firstError_lowest (commandChecks_ascend i s) hd hf
  exact ⟨_, e, exec_of_error hfirst, he, hfe, rfl, hle⟩

/-! ## The idle block (R216) -/

/-- Settles O6, by the law of the step with no access pending. -/
theorem idleStepHoldsState : Obligations.IdleStepHoldsState := fun _ => step_idle

end Sys2Proof.Machine

/-! PROOF. Reset and the host's program (spec/70_reset_and_hazards.md): the launch and reset values (R240, R241), a
reset between accesses and one that interrupts a command (R241, R243), and what a run leaves (R254). -/

namespace Sys2Proof.Machine

/-! ## The launch state -/

/-- The bytes the launch memory lists exist, in canonical form (R50, R241). -/
theorem Memory.fits_ofBytes (p : Params) (mem0 : Nat → Byte) : (Memory.ofBytes p.memBytes mem0).Fits p :=
  ⟨Memory.wf_ofBytes _ _, fun _ hc => (Memory.mem_ofBytes.1 hc).1⟩

/-- Resetting a launch state changes nothing: it holds the reset values already (R240). -/
theorem resetRegisters_launch (p : Params) (mem0 : Nat → Byte) :
    (State.launch p mem0).resetRegisters = State.launch p mem0 := rfl

/-- The launch state meets the invariant, as any state with a fitting memory does once its registers are reset. -/
theorem launch_inv (p : Params) (mem0 : Nat → Byte) : (State.launch p mem0).Inv := by
  rw [← resetRegisters_launch]
  exact resetRegisters_inv (Memory.fits_ofBytes p mem0)

/-- Settles O50: each register of the launch state is 0, and reading offset 0 is the case of ID. -/
theorem resetValues : Obligations.ResetValues :=
  ⟨rfl, rfl, rfl, rfl, rfl, rfl, rfl, rfl, rfl, rfl, rfl, fun _ => rfl⟩

/-- Settles O52: the launch memory is the one of the contents mem0, which reads as they say. -/
theorem launchMemoryIsParameter : Obligations.LaunchMemoryIsParameter :=
  ⟨fun _ mem0 _ ha => Memory.read_ofBytes mem0 ha, rfl⟩

/-- Settles O54: the reset state is the launch state of one part and one launch memory. -/
theorem resetMeetsInvariant : Obligations.ResetMeetsInvariant := ⟨launch_inv _ _, launch_inv⟩

/-! ## A reset -/

/-- Settles O51: the step with a reset pending performs it, and `State.resetRegisters` names the registers alone. -/
theorem resetKeepsMemory : Obligations.ResetKeepsMemory := fun s rest => ⟨step_pending s .reset rest, rfl⟩

/-- The free bytes of an interrupted command lie in its destination range (R243). -/
theorem sameOutside_tornCells (s : State) (i : Instr) (m : Memory) :
    SameOutside m (m.storeAll (tornCells s i)) s.dst.toNat (dstLen i s) :=
  sameOutside_storeAll (fun _ ha => ⟨(tornCells_bounds ha).1, (tornCells_bounds ha).2.1⟩) m

/-- An interrupted CMD write changes no byte outside the destination range of the command its word names (R243). -/
theorem sameOutside_tearMemory {w : Word} {i : Instr} (h : decode w = .ok i) (s : State) :
    SameOutside s.mem (tearMemory w s).mem s.dst.toNat (dstLen i s) := by
  rcases tearMemory_cases w s with ⟨j, hj, htear⟩ | ⟨hillegal, -⟩
  · obtain rfl : j = i := Except.ok.inj (hj.symm.trans h)
    rw [htear]
    exact sameOutside_tornCells s j s.mem
  · exact absurd h (hillegal i)

/-- An interrupted CMD write of a word that names no command changes nothing (R243, log entry 6). -/
theorem tearMemory_of_illegal {w : Word} (h : IllegalWord w) (s : State) : tearMemory w s = s := by
  rcases tearMemory_cases w s with ⟨i, hi, -⟩ | ⟨-, htear⟩
  · exact absurd hi (h i)
  · exact htear

/-- An interrupted CMD write can change the memory alone (R243). -/
theorem tearMemory_frame (w : Word) (s : State) : tearMemory w s = { s with mem := (tearMemory w s).mem } := by
  rcases tearMemory_cases w s with ⟨i, -, htear⟩ | ⟨-, htear⟩
  · rw [htear]
    rfl
  · rw [htear]

/-- A reset during a CMD write is a reset from the torn memory, and takes one draw (R243, log entry 5). -/
theorem resetDuring_eq (w : Word) (s : State) :
    resetDuring w s = { s.resetRegisters with mem := (tearMemory w s).mem, draws := s.draws + 1 } := by
  rw [resetDuring, tearMemory_frame]
  rfl

/-- Settles O53: the memory is the torn one of the state that has taken the access off the host's list. -/
theorem resetDuringCommand : Obligations.ResetDuringCommand := by
  intro s w rest
  refine ⟨(tearMemory w { s with pending := rest, reply := .nothing }).mem, ?_, fun i hi => ?_, fun hillegal => ?_⟩
  · rw [step_pending, access, resetDuring_eq]
    rfl
  · exact sameOutside_tearMemory hi { s with pending := rest, reply := .nothing }
  · rw [tearMemory_of_illegal hillegal]

/-! ## A run -/

/-- A run of k steps takes k accesses off the host's list and keeps the parameters: every step does so for one (R65). -/
theorem run_keeps_params_pending {k : Nat} {s t : State} (h : Sys2Proof.core.run k s = .next t) :
    t.params = s.params ∧ t.pending = s.pending.drop k := by
  induction k generalizing s with
  | zero =>
    cases h
    exact ⟨rfl, rfl⟩
  | succ k ih =>
    obtain ⟨u, hstep, hrun⟩ := run_succ h
    obtain ⟨hparams, hpending⟩ := stepKeepsParameters s u hstep
    obtain ⟨hparams', hpending'⟩ := ih hrun
    refine ⟨hparams'.trans hparams, ?_⟩
    rw [hpending', hpending, List.drop_tail]

/-- The lines of a program that ends in a next state leave the accesses that were pending behind them (R65, R254). -/
theorem run_withLines {s t : State} {ls : List Line} (h : Sys2Proof.core.run ls.length (s.withLines ls) = .next t) :
    t.pending = s.pending ∧ t.params = s.params := by
  obtain ⟨hparams, hpending⟩ := run_keeps_params_pending h
  exact ⟨hpending.trans (List.drop_left' (List.length_map _)), hparams⟩

/-- Settles O58: a run's lines are all the accesses its launch state has, so the final state has none pending and is
idle. -/
theorem runsEndAtRest : Obligations.RunsEndAtRest := by
  refine ⟨fun p mem0 ls t h => ?_, fun s t ls h => run_withLines h⟩
  obtain ⟨hpending, hparams⟩ := run_withLines h
  exact ⟨hpending, hparams, step_idle hpending⟩

end Sys2Proof.Machine
